-- ==== Sys2Proof/Word.lean ====
section
/-! DEFINITION. The word types of the subnet engine block (spec/00_scope.md R9, R11, R14).
Bit 0 of every vector is the least significant bit (R11). -/

namespace Sys2Proof

/-- A byte of a text operand or result (R14, R54). -/
abbrev Byte := BitVec 8

/-- A byte string, first character first (R14, R54). -/
abbrev Text := List Byte

/-- A command word (R70). -/
abbrev CmdWord := BitVec 32

/-- An IPv4 address or mask, octet 0 in bits 31:24 (R13, R52). -/
abbrev Addr4 := BitVec 32

/-- A 128-bit operand or result; an IPv6 address with segment 0 in bits 127:112 (R13, R52). -/
abbrev Addr6 := BitVec 128

/-- A 16-bit IPv6 segment (R9). -/
abbrev Seg := BitVec 16

/-- A count result: 130-bit two's complement (R24, R78). -/
abbrev Count := BitVec 130

end Sys2Proof
end

