-- ==== Sys2Proof/Syntax.lean ====
section
/-! DEFINITION. The operations of the opcode map (spec/30_encoding.md R74), one constructor per row of
spec/opcode_table.json. The mode bit W stands only on the three operations that take it, F only on the two that take
it (R71), so a misplaced mode bit is no term of this type: it is a command word that the decoder rejects. The
operands are fields of the latched request (spec/10_state.md R21), not of the command word. -/

namespace Sys2Proof

inductive Instr where
  /-- 0x10: octet to 8-character binary string (R100). -/
  | v4Bin
  /-- 0x11: decimal text octet to binary string (R101). -/
  | v4Bint
  /-- 0x12: four octets to 32-character binary string (R102). -/
  | v4Bin4
  /-- 0x13: dotted-decimal text to an IPv4 value (R103). -/
  | v4Parse
  /-- 0x14: IPv4 value to dotted-decimal text (R104). -/
  | v4Fmt
  /-- 0x20: network address (R134). -/
  | v4And
  /-- 0x21: inverted mask (R136). -/
  | v4Inv
  /-- 0x22: broadcast address (R138). -/
  | v4Bcast
  /-- 0x23: first usable address, mode bit W (R140). -/
  | v4First (wide : Bool)
  /-- 0x24: last usable address, mode bit W (R143). -/
  | v4Last (wide : Bool)
  /-- 0x28: the whole IPv4 pipeline, mode bit W (R146). -/
  | v4Subnet (wide : Bool)
  /-- 0x30: population-count host enumerator (R161). -/
  | v4Hosts
  /-- 0x31: CIDR prefix-length encoder (R163). -/
  | v4Cidr
  /-- 0x40: colon-hex text to eight segments (R186). -/
  | v6Expand
  /-- 0x41: prefix-length text to a number (R188). -/
  | v6Pfx
  /-- 0x42: IPv6 value to colon-hex text (R190). -/
  | v6Fmt
  /-- 0x43: the 128-bit binary string view (R192). -/
  | v6Bin
  /-- 0x50: prefix length to mask (R212). -/
  | v6Mask
  /-- 0x51: network, mode bit F (R217). -/
  | v6Net (full : Bool)
  /-- 0x52: address range start (R221). -/
  | v6Start
  /-- 0x53: address range end (R223). -/
  | v6End
  /-- 0x54: total address count (R226). -/
  | v6Total
  /-- 0x58: the whole IPv6 pipeline, mode bit F (R230). -/
  | v6Subnet (full : Bool)
deriving DecidableEq, Repr

end Sys2Proof
end

