-- ==== Sys2Proof/WellFormed.lean ====
section
/-! DEFINITION. What a legal request is, said once and apart from the decoder: the five checks of
spec/30_encoding.md R90, written from the lists the rule gives. `Instr` itself has no ill-formed term (Syntax.lean);
what can be ill-formed is the command word and the text length of a request. -/

namespace Sys2Proof

/-- The opcodes of R74 and R90. -/
def legalOpcodes : List (BitVec 8) :=
  [0x10, 0x11, 0x12, 0x13, 0x14, 0x20, 0x21, 0x22, 0x23, 0x24, 0x28, 0x30, 0x31,
   0x40, 0x41, 0x42, 0x43, 0x50, 0x51, 0x52, 0x53, 0x54, 0x58]

/-- The opcodes that take the mode bit W (R71, R90). -/
def wideOpcodes : List (BitVec 8) := [0x23, 0x24, 0x28]

/-- The opcodes that take the mode bit F (R71, R90). -/
def fullOpcodes : List (BitVec 8) := [0x51, 0x58]

/-- The text operations: those that read TLEN and TBUF (R74, R90). -/
def textOpcodes : List (BitVec 8) := [0x11, 0x13, 0x40, 0x41]

/-- Field OPC, bits 7:0 (R70). -/
def opcField (cmd : CmdWord) : BitVec 8 := cmd.extractLsb' 0 8

/-- Field RSV, bits 31:10 (R70). -/
def rsvField (cmd : CmdWord) : BitVec 22 := cmd.extractLsb' 10 22

/-- Bit 8, W (R70). -/
def wideBit (cmd : CmdWord) : Bool := cmd.getLsbD 8

/-- Bit 9, F (R70). -/
def fullBit (cmd : CmdWord) : Bool := cmd.getLsbD 9

/-- The opcode is in the map (R74). -/
def opcodeKnown (cmd : CmdWord) : Bool := legalOpcodes.contains (opcField cmd)

/-- No reserved bit is set (R72). -/
def reservedClear (cmd : CmdWord) : Bool := rsvField cmd == 0

/-- W is set only where it is taken (R71). -/
def wideAllowed (cmd : CmdWord) : Bool := !wideBit cmd || wideOpcodes.contains (opcField cmd)

/-- F is set only where it is taken (R71). -/
def fullAllowed (cmd : CmdWord) : Bool := !fullBit cmd || fullOpcodes.contains (opcField cmd)

/-- A text operation's TLEN is at most TEXT_MAX = 128 (R77). -/
def textFits (cmd : CmdWord) (tlen : BitVec 8) : Bool :=
  !textOpcodes.contains (opcField cmd) || decide (tlen.toNat ≤ 128)

/-- A legal command word: it decodes to one row of R74 (R91). -/
def commandWellFormed (cmd : CmdWord) : Bool :=
  opcodeKnown cmd && reservedClear cmd && wideAllowed cmd && fullAllowed cmd

/-- A legal request: every check of R90 passes. -/
def requestWellFormed (cmd : CmdWord) (tlen : BitVec 8) : Bool :=
  commandWellFormed cmd && textFits cmd tlen

end Sys2Proof
end

