-- ==== Sys2Proof/Decode.lean ====
section
/-! DEFINITION. The decoder of command words, total and rejecting by name, and the encoder
(spec/30_encoding.md R70 to R74, R90). The length check of R90 reads TLEN, which is no part of the command word: the
operation that reads the text operand makes it (Machine/Operands.lean). -/

namespace Sys2Proof

/-- Why a request is an illegal command, in the order of R90. -/
inductive Illegal where
  /-- The opcode is not in the map (R90, sub-code 0x01). -/
  | unknownOpcode
  /-- A bit of CMD[31:10] is set (R72, R90, sub-code 0x02). -/
  | reservedBit
  /-- W or F is set on an opcode that does not take it (R71, R90, sub-code 0x03). -/
  | modeBit
  /-- TLEN exceeds 128 on a text operation (R77, R90, sub-code 0x04). -/
  | textLength
deriving DecidableEq, Repr

/-- The ERRINFO sub-code of an illegal command (spec/60_exceptions.md R252). -/
def illegalInfo : Illegal → BitVec 8
  | .unknownOpcode => 0x01
  | .reservedBit => 0x02
  | .modeBit => 0x03
  | .textLength => 0x04

/-- The row of R74 an opcode names, with the mode bits of the word it stands in; `none` where the map has no row. -/
def rowOf (opc : BitVec 8) (wide full : Bool) : Option Instr :=
  match opc.toNat with
  | 0x10 => some .v4Bin
  | 0x11 => some .v4Bint
  | 0x12 => some .v4Bin4
  | 0x13 => some .v4Parse
  | 0x14 => some .v4Fmt
  | 0x20 => some .v4And
  | 0x21 => some .v4Inv
  | 0x22 => some .v4Bcast
  | 0x23 => some (.v4First wide)
  | 0x24 => some (.v4Last wide)
  | 0x28 => some (.v4Subnet wide)
  | 0x30 => some .v4Hosts
  | 0x31 => some .v4Cidr
  | 0x40 => some .v6Expand
  | 0x41 => some .v6Pfx
  | 0x42 => some .v6Fmt
  | 0x43 => some .v6Bin
  | 0x50 => some .v6Mask
  | 0x51 => some (.v6Net full)
  | 0x52 => some .v6Start
  | 0x53 => some .v6End
  | 0x54 => some .v6Total
  | 0x58 => some (.v6Subnet full)
  | _ => none

/-- Does the operation take the mode bit W (R71)? -/
def takesWide : Instr → Bool
  | .v4First _ | .v4Last _ | .v4Subnet _ => true
  | .v4Bin | .v4Bint | .v4Bin4 | .v4Parse | .v4Fmt | .v4And | .v4Inv | .v4Bcast | .v4Hosts | .v4Cidr
  | .v6Expand | .v6Pfx | .v6Fmt | .v6Bin | .v6Mask | .v6Net _ | .v6Start | .v6End | .v6Total | .v6Subnet _ => false

/-- Does the operation take the mode bit F (R71)? -/
def takesFull : Instr → Bool
  | .v6Net _ | .v6Subnet _ => true
  | .v4Bin | .v4Bint | .v4Bin4 | .v4Parse | .v4Fmt | .v4And | .v4Inv | .v4Bcast | .v4First _ | .v4Last _
  | .v4Subnet _ | .v4Hosts | .v4Cidr | .v6Expand | .v6Pfx | .v6Fmt | .v6Bin | .v6Mask | .v6Start | .v6End
  | .v6Total => false

/-- The word checks of R90 in their written order; the first failing check decides. -/
def decodeWord (cmd : CmdWord) : Except Illegal Instr :=
  match rowOf (cmd.extractLsb' 0 8) (cmd.getLsbD 8) (cmd.getLsbD 9) with
  | none => .error .unknownOpcode
  | some i =>
    if cmd.extractLsb' 10 22 ≠ 0 then .error .reservedBit
    else if cmd.getLsbD 8 && !takesWide i then .error .modeBit
    else if cmd.getLsbD 9 && !takesFull i then .error .modeBit
    else .ok i

/-- The opcode of a row (R74). -/
def opcodeOf : Instr → BitVec 8
  | .v4Bin => 0x10
  | .v4Bint => 0x11
  | .v4Bin4 => 0x12
  | .v4Parse => 0x13
  | .v4Fmt => 0x14
  | .v4And => 0x20
  | .v4Inv => 0x21
  | .v4Bcast => 0x22
  | .v4First _ => 0x23
  | .v4Last _ => 0x24
  | .v4Subnet _ => 0x28
  | .v4Hosts => 0x30
  | .v4Cidr => 0x31
  | .v6Expand => 0x40
  | .v6Pfx => 0x41
  | .v6Fmt => 0x42
  | .v6Bin => 0x43
  | .v6Mask => 0x50
  | .v6Net _ => 0x51
  | .v6Start => 0x52
  | .v6End => 0x53
  | .v6Total => 0x54
  | .v6Subnet _ => 0x58

/-- The W bit of an instruction's word (R70). -/
def wideOf : Instr → Bool
  | .v4First w | .v4Last w | .v4Subnet w => w
  | .v4Bin | .v4Bint | .v4Bin4 | .v4Parse | .v4Fmt | .v4And | .v4Inv | .v4Bcast | .v4Hosts | .v4Cidr
  | .v6Expand | .v6Pfx | .v6Fmt | .v6Bin | .v6Mask | .v6Net _ | .v6Start | .v6End | .v6Total | .v6Subnet _ => false

/-- The F bit of an instruction's word (R70). -/
def fullOf : Instr → Bool
  | .v6Net f | .v6Subnet f => f
  | .v4Bin | .v4Bint | .v4Bin4 | .v4Parse | .v4Fmt | .v4And | .v4Inv | .v4Bcast | .v4First _ | .v4Last _
  | .v4Subnet _ | .v4Hosts | .v4Cidr | .v6Expand | .v6Pfx | .v6Fmt | .v6Bin | .v6Mask | .v6Start | .v6End
  | .v6Total => false

/-- The command word of an instruction: RSV, F, W and OPC from the high end down (R70). -/
def encode (i : Instr) : CmdWord :=
  0#22 ++ BitVec.ofBool (fullOf i) ++ BitVec.ofBool (wideOf i) ++ opcodeOf i

/-- The instruction the decoder reads from a word numbered as spec/opcode_table.json numbers it: one 32-bit command
word, bit 0 the least significant; bits at `nbits` and above are 0. -/
def decodeTableWord (nbits w : Nat) : Option Instr :=
  match decodeWord (BitVec.ofNat 32 (w % 2 ^ nbits)) with
  | .ok i => some i
  | .error _ => none

end Sys2Proof
end

