-- ==== Sys2Proof/Config.lean ====
section
/-! DEFINITION. What an implementation fixes and the spec leaves open (spec/00_scope.md R10).
`V4_EDGE_TEXT` is the one open value. `LATENCY`, the other open parameter, is no constant here: it is the number of
engine turns that do not complete the request, which the schedule in State holds (Machine/State.lean, log entry 4). -/

namespace Sys2Proof

/-- The two renderings of an overflowed or underflowed last octet (R10, R130). -/
inductive EdgeText where
  /-- The last field reads `256` or `-1`. -/
  | unwrapped
  /-- The last field is the wrapped octet, `0` or `255`. -/
  | wrapped
deriving DecidableEq, Repr, Inhabited

/-- The open parameter `V4_EDGE_TEXT` (R10, R130; spec/92_eei_decisions.md D15). It has no body, so nothing can be
proved of its value: a claim holds for both (log entry 5). -/
opaque Config.v4EdgeText : EdgeText

end Sys2Proof
end

