-- ==== Sys2Proof/Machine/State.lean ====
section
/-! DEFINITION. The state of the block as plain data: the request latch REQ, the response record RESP and PHASE
(spec/10_state.md R20 to R24), beside them the moves the outside world still makes and the answers the host got
(R28). State after reset (R33). -/

namespace Sys2Proof.Machine

/-- The handshake state (R23). -/
inductive Phase where
  /-- No request has been accepted since reset. -/
  | idle
  /-- A request is latched and its response is not yet available. -/
  | busy
  /-- The response to the latched request is available. -/
  | done
deriving DecidableEq, Repr

/-- The request latch REQ (R21). -/
structure Request where
  /-- REQ.CMD, the command word (R70). -/
  cmd : BitVec 32
  /-- REQ.A, operand A (R75). -/
  a : BitVec 128
  /-- REQ.B, operand B (R75). -/
  b : BitVec 128
  /-- REQ.P, the prefix operand, unsigned (R76). -/
  p : BitVec 8
  /-- REQ.TLEN, the length of the text operand, unsigned (R77). -/
  tlen : BitVec 8
  /-- REQ.TBUF, TEXT_MAX = 128 bytes; the first byte is the first character (R77). -/
  tbuf : Vector Byte 128
deriving DecidableEq, Repr

/-- The response record RESP (R24). -/
structure Response where
  /-- RESP.STATUS (R251). -/
  status : BitVec 4
  /-- RESP.ERRINFO (R252, R253). -/
  errinfo : BitVec 8
  /-- RESP.FLAGS, the DomainLimitation indicators (R26). -/
  flags : BitVec 8
  /-- RESP.R0. -/
  r0 : BitVec 128
  /-- RESP.R1. -/
  r1 : BitVec 128
  /-- RESP.R2. -/
  r2 : BitVec 128
  /-- RESP.R3. -/
  r3 : BitVec 128
  /-- RESP.RCOUNT, 130-bit two's complement (R78). -/
  rcount : BitVec 130
  /-- RESP.RPFX. -/
  rpfx : BitVec 8
  /-- RESP.RTLEN, the length of the text result. -/
  rtlen : BitVec 8
  /-- RESP.RTEXT; the first byte is the first character. -/
  rtext : Vector Byte 128
deriving DecidableEq, Repr

/-- What an operation raises: the status code and ERRINFO of its error response (R15, R251, R256). -/
structure Raise where
  status : BitVec 4
  info : BitVec 8
deriving DecidableEq, Repr

/-- The host's three actions (R28). -/
inductive HostAction where
  /-- SUBMIT(req). -/
  | submit (q : Request)
  /-- READ. -/
  | read
  /-- POLL. -/
  | poll
deriving DecidableEq, Repr

/-- Who moves next (R28, R29, R280): the model's own data, not the spec's (log entry 3). -/
inductive Turn where
  /-- The host takes an action. -/
  | host (act : HostAction)
  /-- The engine moves: it completes the latched request (EXECUTE), or makes one of the LATENCY steps before that
  (R290, log entry 4). -/
  | engine (completes : Bool)
  /-- The external RESET input is asserted (R280). -/
  | reset
deriving DecidableEq, Repr

/-- What an action of the host returned (R28). -/
inductive Answer where
  /-- POLL returned PHASE. -/
  | phase (p : Phase)
  /-- READ returned RESP. -/
  | response (r : Response)
deriving DecidableEq, Repr

/-- The whole state. PHASE, REQ and RESP are the block's (R20); `turns` and `answers` are the model's record of the
agents around it (log entry 3). -/
structure State where
  /-- PHASE (R23). -/
  phase : Phase
  /-- REQ, the request being worked on or last worked on (R21). -/
  req : Request
  /-- RESP; `none` is the spec's own "holds no value" of IDLE and BUSY (R30, R33). -/
  resp : Option Response
  /-- The moves of host, engine and RESET still to come, the next one first. -/
  turns : List Turn
  /-- What POLL and READ returned, the newest first. -/
  answers : List Answer
deriving DecidableEq, Repr

/-- Why the machine stops with a fault. -/
inductive Fault where
  /-- The host reads RESP while it holds no value: R30 and R285 make it a protocol fault. Raised by the host's READ
  outside DONE. Safe: the spec itself asks for the fault. -/
  | readOutsideDone
deriving DecidableEq, Repr

/-- Why a step has no meaning. -/
inductive Refusal where
  /-- The instruction is not modelled yet; raised by exec's rejected arms, of which this model has none. Safe. -/
  | notModelled (mnemonic : String)
deriving DecidableEq, Repr

/-- The request with every field zero (R92: omitted fields are zero). -/
def Request.zero : Request :=
  { cmd := 0, a := 0, b := 0, p := 0, tlen := 0, tbuf := Vector.replicate 128 0 }

/-- The response with every field zero: what a field that no rule names holds (R25). -/
def Response.zero : Response :=
  { status := 0, errinfo := 0, flags := 0, r0 := 0, r1 := 0, r2 := 0, r3 := 0, rcount := 0, rpfx := 0, rtlen := 0,
    rtext := Vector.replicate 128 0 }

/-- The machine after reset (R33): PHASE is IDLE and RESP holds no value. The spec gives REQ no value: zero is a
DESIGN CHOICE (log entry 1). No turn is pending and no answer was given (log entry 3). -/
def State.reset : State :=
  { phase := .idle, req := Request.zero, resp := none, turns := [], answers := [] }

end Sys2Proof.Machine
end

