-- ==== Sys2Proof/Machine/Ops.lean ====
section
/-! DEFINITION. The shared operations over the state: raising an error, the error response (the block's only exception,
spec/60_exceptions.md R256), completing a request (EXECUTE's effect, spec/10_state.md R29), the host's actions (R28)
and RESET (spec/70_reset_and_hazards.md R280). -/

namespace Sys2Proof.Machine

/-! ### Raising (R15, R251) -/

/-- STATUS = OK (R251). -/
def statusOk : BitVec 4 := 0
/-- STATUS = PARSE_ERROR (R251). -/
def statusParse : BitVec 4 := 1
/-- STATUS = RANGE_ERROR (R251). -/
def statusRange : BitVec 4 := 2
/-- STATUS = ILLEGAL_COMMAND (R251). -/
def statusIllegal : BitVec 4 := 3

/-- ERRINFO of an error that belongs to no one field (R253). -/
def noField : BitVec 8 := 0xFF

/-- ERRINFO of an error in text field i (R253). -/
def fieldInfo (i : Nat) : BitVec 8 := BitVec.ofNat 8 i

/-- `raise ParseError(info)` (R15). -/
def raiseParse {α : Type} (info : BitVec 8) : Except Raise α := .error { status := statusParse, info := info }

/-- `raise RangeError(info)` (R15). -/
def raiseRange {α : Type} (info : BitVec 8) : Except Raise α := .error { status := statusRange, info := info }

/-- `raise IllegalCommand(info)` (R15, R252). -/
def raiseIllegal {α : Type} (why : Illegal) : Except Raise α :=
  .error { status := statusIllegal, info := illegalInfo why }

/-! ### Responses (R25, R89, R256) -/

/-- TEXT_MAX bytes holding t from position 0, the remaining bytes zero (R25, R89). -/
def padText (t : Text) : Vector Byte 128 := Vector.ofFn fun j : Fin 128 => t.getD j.val 0

/-- `RESP.TEXT <- t` (R89). -/
def withText (r : Response) (t : Text) : Response :=
  { r with rtlen := BitVec.ofNat 8 t.length, rtext := padText t }

/-- The error response: status and info, every other field zero (R256). -/
def errorResponse (e : Raise) : Response := { Response.zero with status := e.status, errinfo := e.info }

/-- The response of an operation: its own where it returns, the error response where it raises (R15, R256). -/
def responseOf : Except Raise Response → Response
  | .ok r => r
  | .error e => errorResponse e

/-- EXECUTE's effect: RESP gets the operation's response whole and PHASE becomes DONE, for an error as for a success
(R29, R256). There is no return from an error (R257): the host's next SUBMIT starts the next request. -/
def complete (s : State) (result : Except Raise Response) : Host.Outcome State Fault Refusal :=
  .next { s with resp := some (responseOf result), phase := .done }

/-! ### The host's actions and RESET (R28, R280) -/

/-- SUBMIT's effect: the whole request is latched, PHASE becomes BUSY and the previous RESP holds no value any more
(R22, R28, R30). -/
def submit (q : Request) (s : State) : State := { s with req := q, phase := .busy, resp := none }

/-- POLL returns PHASE and changes nothing of the block (R28). -/
def poll (s : State) : State := { s with answers := .phase s.phase :: s.answers }

/-- READ returns RESP in DONE; anywhere else RESP holds no value and the read is a protocol fault (R28, R30, R285). -/
def readResponse (s : State) : Host.Outcome State Fault Refusal :=
  match s.phase, s.resp with
  | .done, some r => .next { s with answers := .response r :: s.answers }
  | .done, none => .fault .readOutsideDone
  | .idle, _ => .fault .readOutsideDone
  | .busy, _ => .fault .readOutsideDone

/-- RESET: the block's state is that after reset; the agents outside the block keep theirs (R280, R281). -/
def resetInput (s : State) : State := { State.reset with turns := s.turns, answers := s.answers }

end Sys2Proof.Machine
end

