-- ==== Sys2Proof/Machine/Text.lean ====
section
/-! DEFINITION. The text encodings of spec/30_encoding.md R80 to R88 and the string functions of spec/00_scope.md R13
and R14: reading decimal and hexadecimal fields, splitting, and writing numbers and addresses. -/

namespace Sys2Proof.Machine

/-- `'0'` (R80). -/
def chZero : Byte := 0x30
/-- `'1'` (R80). -/
def chOne : Byte := 0x31
/-- `'.'` (R80). -/
def chDot : Byte := 0x2E
/-- `':'` (R80). -/
def chColon : Byte := 0x3A
/-- `'/'` (R80). -/
def chSlash : Byte := 0x2F
/-- `','` (R80). -/
def chComma : Byte := 0x2C
/-- `'-'` (R80). -/
def chMinus : Byte := 0x2D

/-! ### Address helpers (R13) -/

/-- `octet(x, i)`: bits 31-8i down to 24-8i; octet 0 is the leftmost of the dotted form. -/
def octet (x : Addr4) (i : Nat) : BitVec 8 := x.extractLsb' (24 - 8 * i) 8

/-- `seg(x, i)`: bits 127-16i down to 112-16i; segment 0 is the leftmost group. -/
def seg (x : Addr6) (i : Nat) : Seg := x.extractLsb' (112 - 16 * i) 16

/-- `v4(o0, o1, o2, o3)`. -/
def v4 (o0 o1 o2 o3 : BitVec 8) : Addr4 := o0 ++ o1 ++ o2 ++ o3

/-- `v6(s0, ..., s7)`. -/
def v6 (s0 s1 s2 s3 s4 s5 s6 s7 : Seg) : Addr6 := s0 ++ s1 ++ s2 ++ s3 ++ s4 ++ s5 ++ s6 ++ s7

/-- `ones(n, w)`: the n most significant bits are 1, the others 0, for n ≤ w. -/
def ones (n w : Nat) : BitVec w := BitVec.allOnes w <<< (w - n)

/-- `popcount(v)`: how many bits of v are 1. -/
def popcount {w : Nat} (v : BitVec w) : Nat := (List.range w).countP fun i => v.getLsbD i

/-- `contiguous32(m)`. -/
def contiguous32 (m : Addr4) : Bool := m == ones (popcount m) 32

/-! ### Strings (R14) -/

/-- `split(s, c)`: the maximal pieces between occurrences of c, one more than there are occurrences. -/
def split (c : Byte) : Text → List Text
  | [] => [[]]
  | b :: bs =>
    if b = c then [] :: split c bs
    else
      match split c bs with
      | f :: fs => (b :: f) :: fs
      | [] => [[b]]

/-! ### Reading fields (R81, R82) -/

/-- Is the byte in `'0'`..`'9'`? -/
def isDigit (b : Byte) : Bool := decide (0x30 ≤ b.toNat) && decide (b.toNat ≤ 0x39)

/-- Is the string a decimal field: at least one byte, all of them digits (R81)? -/
def isDecimal (d : Text) : Bool := !d.isEmpty && d.all isDigit

/-- `decval(d)`, unbounded (R81). -/
def decval (d : Text) : Nat := d.foldl (fun acc b => 10 * acc + (b.toNat - 0x30)) 0

/-- Is the byte a hex digit, in either case (R82)? -/
def isHex (b : Byte) : Bool :=
  isDigit b || (decide (0x61 ≤ b.toNat) && decide (b.toNat ≤ 0x66)) || (decide (0x41 ≤ b.toNat) && decide (b.toNat ≤ 0x46))

/-- The value of a hex digit (R82): letters of either case count 10 to 15. -/
def hexDigitVal (b : Byte) : Nat :=
  if b.toNat ≤ 0x39 then b.toNat - 0x30 else if b.toNat ≤ 0x46 then b.toNat - 0x37 else b.toNat - 0x57

/-- `hexval(h)` (R82); the empty string has value 0. -/
def hexval (h : Text) : Nat := h.foldl (fun acc b => 16 * acc + hexDigitVal b) 0

/-! ### Writing numbers (R83 to R86) -/

/-- The character of a decimal digit. -/
def decDigit (d : Nat) : Byte := BitVec.ofNat 8 (0x30 + d)

/-- The decimal digits of n, most significant first; the fuel bounds their number. -/
def decDigits : Nat → Nat → Text
  | 0, _ => []
  | fuel + 1, n => if n < 10 then [decDigit n] else decDigits fuel (n / 10) ++ [decDigit (n % 10)]

/-- `dec(n)` for n ≥ 0 (R83). A number of b bits has at most b decimal digits, which bounds the recursion. -/
def dec (n : Nat) : Text := decDigits (n.log2 + 1) n

/-- `dec(n)` for any integer (R83). -/
def decInt : Int → Text
  | .ofNat n => dec n
  | .negSucc n => chMinus :: dec (n + 1)

/-- The lowercase character of a hex digit (R84). -/
def hexDigit (d : BitVec 4) : Byte := BitVec.ofNat 8 (if d.toNat < 10 then 0x30 + d.toNat else 0x57 + d.toNat)

/-- `hex4(v)`: four lowercase hex digits, most significant first (R84). -/
def hex4 (v : Seg) : Text :=
  [hexDigit (v.extractLsb' 12 4), hexDigit (v.extractLsb' 8 4), hexDigit (v.extractLsb' 4 4), hexDigit (v.extractLsb' 0 4)]

/-- `bin(v, w)`: w characters, byte j telling bit w-1-j (R85). -/
def bin {w : Nat} (v : BitVec w) : Text :=
  (List.range w).map fun j => if v.getLsbD (w - 1 - j) then chOne else chZero

/-- A comma after every three characters that others follow; applied to digits in reverse order (R86). -/
def insertCommas : Text → Text
  | a :: b :: c :: d :: rest => a :: b :: c :: chComma :: insertCommas (d :: rest)
  | short => short

/-- `grouped(n)` (R86). -/
def grouped (n : Nat) : Text := (insertCommas (dec n).reverse).reverse

/-! ### Writing addresses (R87, R88) -/

/-- `dotted(x)` (R87). -/
def dotted (x : Addr4) : Text :=
  dec (octet x 0).toNat ++ [chDot] ++ dec (octet x 1).toNat ++ [chDot] ++ dec (octet x 2).toNat ++ [chDot]
    ++ dec (octet x 3).toNat

/-- `colonhex(x)`: eight groups of four digits, never abbreviated (R88). -/
def colonhex (x : Addr6) : Text :=
  hex4 (seg x 0) ++ [chColon] ++ hex4 (seg x 1) ++ [chColon] ++ hex4 (seg x 2) ++ [chColon] ++ hex4 (seg x 3)
    ++ [chColon] ++ hex4 (seg x 4) ++ [chColon] ++ hex4 (seg x 5) ++ [chColon] ++ hex4 (seg x 6) ++ [chColon]
    ++ hex4 (seg x 7)

end Sys2Proof.Machine
end

