-- ==== Sys2Proof/Machine/Operands.lean ====
section
/-! DEFINITION. How an operation reads its operands out of the latched request (spec/30_encoding.md R75 to R77,
spec/45_ipv6_pipeline.md R211). Bits a reader below does not take are ignored (R75). -/

namespace Sys2Proof.Machine

/-- A single octet, A[7:0] (R75, R100). -/
def octetA (q : Request) : BitVec 8 := q.a.extractLsb' 0 8

/-- The IPv4 address a = A[31:0] (R75). -/
def addrA (q : Request) : Addr4 := q.a.extractLsb' 0 32

/-- The IPv4 mask m = B[31:0] (R75). -/
def maskB (q : Request) : Addr4 := q.b.extractLsb' 0 32

/-- The text operand TBUF[0 .. TLEN-1] (R77). A TLEN above 128 is an illegal command (the last check of R90); an empty
text is a ParseError of every text operation. -/
def textOperand (q : Request) : Except Raise Text :=
  if 128 < q.tlen.toNat then raiseIllegal .textLength
  else if q.tlen.toNat = 0 then raiseParse noField
  else .ok (q.tbuf.toList.take q.tlen.toNat)

/-- The prefix operand with its check: P above 128 is a RangeError (R76, R211). -/
def prefixOperand (q : Request) : Except Raise Nat :=
  if 128 < q.p.toNat then raiseRange noField else .ok q.p.toNat

/-- An IPv4 result: bits 31:0 of a result field, the others zero (R78). -/
def result4 (x : Addr4) : BitVec 128 := x.setWidth 128

end Sys2Proof.Machine
end

