-- ==== Sys2Proof/Machine/V4Convert.lean ====
section
/-! DEFINITION. IPv4 conversion: V4.BIN, V4.BINT, V4.BIN4, V4.PARSE, V4.FMT (spec/41_ipv4_convert.md). Each operation
is a function of the latched request; its meaning completes the request with it. -/

namespace Sys2Proof.Machine

/-- V4.BIN (R100). -/
def opV4Bin (q : Request) : Except Raise Response :=
  .ok (withText { Response.zero with r0 := (octetA q).setWidth 128 } (bin (octetA q)))

/-- V4.BINT (R101). -/
def opV4Bint (q : Request) : Except Raise Response := do
  let s ← textOperand q
  if !isDecimal s then raiseParse (fieldInfo 0)
  else if 255 < decval s then raiseRange (fieldInfo 0)
  else
    let v := BitVec.ofNat 8 (decval s)
    .ok (withText { Response.zero with r0 := v.setWidth 128 } (bin v))

/-- V4.BIN4 (R102). -/
def opV4Bin4 (q : Request) : Except Raise Response :=
  .ok (withText { Response.zero with r0 := result4 (addrA q) } (bin (addrA q)))

/-- Dotted-decimal text to an IPv4 value: the field count, then every field's syntax, then every field's range, fields
ascending (R103, R254). -/
def parseDotted (s : Text) : Except Raise Addr4 :=
  let fields := split chDot s
  match fields with
  | [f0, f1, f2, f3] =>
    match fields.findIdx? (fun f => !isDecimal f) with
    | some i => raiseParse (fieldInfo i)
    | none =>
      match fields.findIdx? (fun f => decide (255 < decval f)) with
      | some i => raiseRange (fieldInfo i)
      | none =>
        .ok (v4 (BitVec.ofNat 8 (decval f0)) (BitVec.ofNat 8 (decval f1)) (BitVec.ofNat 8 (decval f2))
          (BitVec.ofNat 8 (decval f3)))
  | _ => raiseParse noField

/-- V4.PARSE (R103). -/
def opV4Parse (q : Request) : Except Raise Response := do
  let s ← textOperand q
  let x ← parseDotted s
  .ok (withText { Response.zero with r0 := result4 x } (dotted x))

/-- V4.FMT (R104). -/
def opV4Fmt (q : Request) : Except Raise Response :=
  .ok (withText { Response.zero with r0 := result4 (addrA q) } (dotted (addrA q)))

/-- V4.BIN (R100). -/
def execV4Bin (s : State) : Host.Outcome State Fault Refusal := complete s (opV4Bin s.req)

/-- V4.BINT (R101). -/
def execV4Bint (s : State) : Host.Outcome State Fault Refusal := complete s (opV4Bint s.req)

/-- V4.BIN4 (R102). -/
def execV4Bin4 (s : State) : Host.Outcome State Fault Refusal := complete s (opV4Bin4 s.req)

/-- V4.PARSE (R103). -/
def execV4Parse (s : State) : Host.Outcome State Fault Refusal := complete s (opV4Parse s.req)

/-- V4.FMT (R104). -/
def execV4Fmt (s : State) : Host.Outcome State Fault Refusal := complete s (opV4Fmt s.req)

end Sys2Proof.Machine
end

