-- ==== Sys2Proof/Machine/Flags.lean ====
section
/-! DEFINITION. RESP.FLAGS: the bit layout (spec/10_state.md R26) and the conditions that a mask or a text alone
decides (spec/60_exceptions.md R262, R265, R267). FOVF and LUNF are the second results of `firstUsable` and
`lastUsable` (Machine/V4Pipeline.lean), V6LEG compares the two networks (Machine/V6Pipeline.lean). -/

namespace Sys2Proof.Machine

/-- FLAGS from its six bits; bits 7:6 are 0, and a flag an operation does not name is 0 (R26, R260). -/
def packFlags (noncontig : Bool := false) (fovf : Bool := false) (lunf : Bool := false) (hlim : Bool := false)
    (v6leg : Bool := false) (gapq : Bool := false) : BitVec 8 :=
  0#2 ++ BitVec.ofBool gapq ++ BitVec.ofBool v6leg ++ BitVec.ofBool hlim ++ BitVec.ofBool lunf ++ BitVec.ofBool fovf
    ++ BitVec.ofBool noncontig

/-- NONCONTIG: the mask is not contiguous (R262). -/
def noncontigFlag (m : Addr4) : Bool := !contiguous32 m

/-- HLIM: the mask has 31 or 32 ones (R265). -/
def hlimFlag (m : Addr4) : Bool := decide (31 ≤ popcount m)

/-- The indices of the empty fields, ascending (R267's set E). -/
def emptyFields (fields : List Text) : List Nat :=
  (List.range fields.length).filter fun i => (fields.getD i []).isEmpty

/-- `gap_quirk(s)`: false exactly on the five standard shapes of at most one `::` (R267). -/
def gapQuirk (s : Text) : Bool :=
  let fields := split chColon s
  let k := fields.length
  let e := emptyFields fields
  !(e == [] || (match e with | [i] => decide (0 < i) && decide (i < k - 1) | _ => false)
    || (e == [0, 1] && decide (3 ≤ k)) || (e == [k - 2, k - 1] && decide (3 ≤ k)) || (e == [0, 1, 2] && k == 3))

end Sys2Proof.Machine
end

