-- ==== Sys2Proof/Machine/V4Pipeline.lean ====
section
/-! DEFINITION. The IPv4 AND/OR pipeline and usable range, the population count and the CIDR encoder: V4.AND, V4.INV,
V4.BCAST, V4.FIRST, V4.LAST, V4.SUBNET, V4.HOSTS, V4.CIDR (spec/42_ipv4_pipeline.md, spec/43_popcount_cidr.md). No
operation here raises an error after decode. -/

namespace Sys2Proof.Machine

/-- `net(a, m)` (R131). -/
def net4 (a m : Addr4) : Addr4 := a &&& m

/-- `inv(m)` (R132). -/
def inv4 (m : Addr4) : Addr4 := ~~~m

/-- `bcast(a, m)` (R133). -/
def bcast4 (a m : Addr4) : Addr4 := net4 a m ||| inv4 m

/-- `first(n, W)`: first usable address and its overflow bit (R135). -/
def firstUsable (n : Addr4) (wide : Bool) : Addr4 × Bool :=
  if wide then (BitVec.ofNat 32 (n.toNat + 1), n.toNat == 2 ^ 32 - 1)
  else
    let o := (n.extractLsb' 0 8).toNat
    (n.extractLsb' 8 24 ++ BitVec.ofNat 8 (o + 1), o == 255)

/-- `last(b, W)`: last usable address and its underflow bit (R137). -/
def lastUsable (b : Addr4) (wide : Bool) : Addr4 × Bool :=
  if wide then (BitVec.ofInt 32 ((b.toNat : Int) - 1), b.toNat == 0)
  else
    let o := (b.extractLsb' 0 8).toNat
    (b.extractLsb' 8 24 ++ BitVec.ofInt 8 ((o : Int) - 1), o == 0)

/-- Did the last octet of a usable-range address leave 0..255 (R130's e)? -/
inductive Edge where
  | none
  | over
  | under
deriving DecidableEq, Repr

/-- `usable_text(x, e)` under a value of `V4_EDGE_TEXT` (R130). -/
def usableText (edgeText : EdgeText) (x : Addr4) (e : Edge) : Text :=
  let head := dec (octet x 0).toNat ++ [chDot] ++ dec (octet x 1).toNat ++ [chDot] ++ dec (octet x 2).toNat ++ [chDot]
  match e with
  | .none => dotted x
  | .over =>
    match edgeText with
    | .wrapped => dotted x
    | .unwrapped => head ++ decInt (((octet x 3).toNat : Int) + 256)
  | .under =>
    match edgeText with
    | .wrapped => dotted x
    | .unwrapped => head ++ decInt (((octet x 3).toNat : Int) - 256)

/-- `hosts(k)`, an exact integer (R160, R166). -/
def hosts (k : Nat) : Int := 2 ^ (32 - k) - 2

/-- V4.AND (R134). -/
def opV4And (q : Request) : Except Raise Response :=
  let n := net4 (addrA q) (maskB q)
  .ok (withText { Response.zero with r0 := result4 n, flags := packFlags (noncontig := noncontigFlag (maskB q)) }
    (dotted n))

/-- V4.INV (R136). -/
def opV4Inv (q : Request) : Except Raise Response :=
  let v := inv4 (maskB q)
  .ok (withText { Response.zero with r0 := result4 v, flags := packFlags (noncontig := noncontigFlag (maskB q)) }
    (dotted v))

/-- V4.BCAST (R138). -/
def opV4Bcast (q : Request) : Except Raise Response :=
  let b := bcast4 (addrA q) (maskB q)
  .ok (withText { Response.zero with r0 := result4 b, flags := packFlags (noncontig := noncontigFlag (maskB q)) }
    (dotted b))

/-- V4.FIRST (R140). -/
def opV4First (wide : Bool) (q : Request) : Except Raise Response :=
  let (f, ovf) := firstUsable (net4 (addrA q) (maskB q)) wide
  .ok (withText
    { Response.zero with
      r0 := result4 f, flags := packFlags (noncontig := noncontigFlag (maskB q)) (fovf := ovf) }
    (usableText Config.v4EdgeText f (if ovf && !wide then .over else .none)))

/-- V4.LAST (R143). -/
def opV4Last (wide : Bool) (q : Request) : Except Raise Response :=
  let (l, unf) := lastUsable (bcast4 (addrA q) (maskB q)) wide
  .ok (withText
    { Response.zero with
      r0 := result4 l, flags := packFlags (noncontig := noncontigFlag (maskB q)) (lunf := unf) }
    (usableText Config.v4EdgeText l (if unf && !wide then .under else .none)))

/-- V4.SUBNET: the whole pipeline, no text result (R146). -/
def opV4Subnet (wide : Bool) (q : Request) : Except Raise Response :=
  let m := maskB q
  let n := net4 (addrA q) m
  let b := n ||| inv4 m
  let (f, ovf) := firstUsable n wide
  let (l, unf) := lastUsable b wide
  let k := popcount m
  .ok { Response.zero with
    r0 := result4 n, r1 := result4 b, r2 := result4 f, r3 := result4 l, rcount := BitVec.ofInt 130 (hosts k),
    rpfx := BitVec.ofNat 8 k,
    flags := packFlags (noncontig := noncontigFlag m) (fovf := ovf) (lunf := unf) (hlim := hlimFlag m) }

/-- V4.HOSTS (R161). -/
def opV4Hosts (q : Request) : Except Raise Response :=
  let m := maskB q
  let k := popcount m
  .ok (withText
    { Response.zero with
      rcount := BitVec.ofInt 130 (hosts k), rpfx := BitVec.ofNat 8 k,
      flags := packFlags (noncontig := noncontigFlag m) (hlim := hlimFlag m) }
    (decInt (hosts k)))

/-- V4.CIDR (R163). -/
def opV4Cidr (q : Request) : Except Raise Response :=
  let m := maskB q
  let k := popcount m
  .ok (withText
    { Response.zero with rpfx := BitVec.ofNat 8 k, flags := packFlags (noncontig := noncontigFlag m) }
    (chSlash :: dec k))

/-- V4.AND (R134). -/
def execV4And (s : State) : Host.Outcome State Fault Refusal := complete s (opV4And s.req)

/-- V4.INV (R136). -/
def execV4Inv (s : State) : Host.Outcome State Fault Refusal := complete s (opV4Inv s.req)

/-- V4.BCAST (R138). -/
def execV4Bcast (s : State) : Host.Outcome State Fault Refusal := complete s (opV4Bcast s.req)

/-- V4.FIRST (R140). -/
def execV4First (wide : Bool) (s : State) : Host.Outcome State Fault Refusal := complete s (opV4First wide s.req)

/-- V4.LAST (R143). -/
def execV4Last (wide : Bool) (s : State) : Host.Outcome State Fault Refusal := complete s (opV4Last wide s.req)

/-- V4.SUBNET (R146). -/
def execV4Subnet (wide : Bool) (s : State) : Host.Outcome State Fault Refusal := complete s (opV4Subnet wide s.req)

/-- V4.HOSTS (R161). -/
def execV4Hosts (s : State) : Host.Outcome State Fault Refusal := complete s (opV4Hosts s.req)

/-- V4.CIDR (R163). -/
def execV4Cidr (s : State) : Host.Outcome State Fault Refusal := complete s (opV4Cidr s.req)

end Sys2Proof.Machine
end

