-- ==== Sys2Proof/Machine/V6Convert.lean ====
section
/-! DEFINITION. The IPv6 segment expander, the prefix parser and the formatters: V6.EXPAND, V6.PFX, V6.FMT, V6.BIN
(spec/44_ipv6_expand.md). -/

namespace Sys2Proof.Machine

/-- The field holding the first byte that is neither a hex digit nor `':'`, counted by the colons before it (R182). -/
def badCharField (s : Text) : Option Nat :=
  match s.findIdx? (fun b => !(isHex b || b == chColon)) with
  | some j => some ((s.take j).count chColon)
  | none => none

/-- The gap filling of R184 over the fields left to read: `nexp` counts the explicit groups of the whole text, `seen`
says whether the first empty field has passed. -/
def fillGap (nexp : Nat) : Bool → List Text → List Seg
  | _, [] => []
  | seen, f :: fs =>
    if f.isEmpty then
      if seen then fillGap nexp true fs else List.replicate (8 - nexp) 0 ++ fillGap nexp true fs
    else BitVec.ofNat 16 (hexval f) :: fillGap nexp seen fs

/-- `expand6(s)`: character check, group length, gap filling, group count, in this order (R182 to R185). -/
def expand6 (s : Text) : Except Raise Addr6 :=
  let fields := split chColon s
  match badCharField s with
  | some i => raiseParse (fieldInfo i)
  | none =>
    match fields.findIdx? (fun f => decide (4 < f.length)) with
    | some i => raiseParse (fieldInfo i)
    | none =>
      match fillGap (fields.countP fun f => !f.isEmpty) false fields with
      | [s0, s1, s2, s3, s4, s5, s6, s7] => .ok (v6 s0 s1 s2 s3 s4 s5 s6 s7)
      | _ => raiseParse noField

/-- V6.EXPAND (R186). -/
def opV6Expand (q : Request) : Except Raise Response := do
  let s ← textOperand q
  let x ← expand6 s
  .ok (withText { Response.zero with r0 := x, flags := packFlags (gapq := gapQuirk s) } (colonhex x))

/-- The decimal part of a prefix text: at most one leading `'/'` is dropped (R188). -/
def dropSlash : Text → Text
  | [] => []
  | b :: bs => if b = chSlash then bs else b :: bs

/-- V6.PFX (R188). -/
def opV6Pfx (q : Request) : Except Raise Response := do
  let s ← textOperand q
  let d := dropSlash s
  if !isDecimal d then raiseParse (fieldInfo 0)
  else if 128 < decval d then raiseRange (fieldInfo 0)
  else .ok (withText { Response.zero with rpfx := BitVec.ofNat 8 (decval d) } (dec (decval d)))

/-- V6.FMT (R190). -/
def opV6Fmt (q : Request) : Except Raise Response :=
  .ok (withText { Response.zero with r0 := q.a } (colonhex q.a))

/-- V6.BIN (R192). -/
def opV6Bin (q : Request) : Except Raise Response :=
  .ok (withText { Response.zero with r0 := q.a } (bin q.a))

/-- V6.EXPAND (R186). -/
def execV6Expand (s : State) : Host.Outcome State Fault Refusal := complete s (opV6Expand s.req)

/-- V6.PFX (R188). -/
def execV6Pfx (s : State) : Host.Outcome State Fault Refusal := complete s (opV6Pfx s.req)

/-- V6.FMT (R190). -/
def execV6Fmt (s : State) : Host.Outcome State Fault Refusal := complete s (opV6Fmt s.req)

/-- V6.BIN (R192). -/
def execV6Bin (s : State) : Host.Outcome State Fault Refusal := complete s (opV6Bin s.req)

end Sys2Proof.Machine
end

