-- ==== Sys2Proof/Machine/V6Pipeline.lean ====
section
/-! DEFINITION. IPv6 mask, network, range and address count: V6.MASK, V6.NET, V6.START, V6.END, V6.TOTAL, V6.SUBNET
(spec/45_ipv6_pipeline.md). Each reads P through the check of R211. -/

namespace Sys2Proof.Machine

/-- `mask6(p)` (R210). -/
def mask6 (p : Nat) : Addr6 := ones p 128

/-- `net6_legacy(x, M)`: groups 0..2 copied, groups 3..7 ANDed (R215). -/
def net6Legacy (x m : Addr6) : Addr6 := x.extractLsb' 80 48 ++ (x.extractLsb' 0 80 &&& m.extractLsb' 0 80)

/-- `net6_full(x, M)` (R216). -/
def net6Full (x m : Addr6) : Addr6 := x &&& m

/-- V6LEG: the two networks differ (R266). -/
def v6legFlag (x : Addr6) (p : Nat) : Bool := net6Legacy x (mask6 p) != net6Full x (mask6 p)

/-- `start6(N, p)` (R219). -/
def start6 (n : Addr6) (p : Nat) : Addr6 := n &&& ones p 128

/-- `end6(N, p)` (R219). -/
def end6 (n : Addr6) (p : Nat) : Addr6 := n ||| ~~~(ones p 128)

/-- The network an operation reports: the full one with F = 1, else the legacy one (R217, R230). -/
def net6 (full : Bool) (x : Addr6) (p : Nat) : Addr6 :=
  if full then net6Full x (mask6 p) else net6Legacy x (mask6 p)

/-- The exact address count, 2 to the power 128 - p (R226). -/
def total6 (p : Nat) : Nat := 2 ^ (128 - p)

/-- V6.MASK (R212). -/
def opV6Mask (q : Request) : Except Raise Response := do
  let p ← prefixOperand q
  .ok (withText { Response.zero with r0 := mask6 p, rpfx := BitVec.ofNat 8 p } (colonhex (mask6 p)))

/-- V6.NET (R217). -/
def opV6Net (full : Bool) (q : Request) : Except Raise Response := do
  let p ← prefixOperand q
  let n := net6 full q.a p
  .ok (withText { Response.zero with r0 := n, flags := packFlags (v6leg := v6legFlag q.a p) } (colonhex n))

/-- V6.START, from the legacy network (R221). -/
def opV6Start (q : Request) : Except Raise Response := do
  let p ← prefixOperand q
  let v := start6 (net6Legacy q.a (mask6 p)) p
  .ok (withText { Response.zero with r0 := v } (colonhex v))

/-- V6.END, from the legacy network (R223). -/
def opV6End (q : Request) : Except Raise Response := do
  let p ← prefixOperand q
  let v := end6 (net6Legacy q.a (mask6 p)) p
  .ok (withText { Response.zero with r0 := v } (colonhex v))

/-- V6.TOTAL (R226). -/
def opV6Total (q : Request) : Except Raise Response := do
  let p ← prefixOperand q
  .ok (withText { Response.zero with rcount := BitVec.ofNat 130 (total6 p), rpfx := BitVec.ofNat 8 p }
    (grouped (total6 p)))

/-- V6.SUBNET: the whole pipeline after expansion, no text result (R230). -/
def opV6Subnet (full : Bool) (q : Request) : Except Raise Response := do
  let p ← prefixOperand q
  let nl := net6Legacy q.a (mask6 p)
  .ok { Response.zero with
    r0 := q.a, r1 := net6 full q.a p, r2 := start6 nl p, r3 := end6 nl p, rcount := BitVec.ofNat 130 (total6 p),
    rpfx := BitVec.ofNat 8 p, flags := packFlags (v6leg := v6legFlag q.a p) }

/-- V6.MASK (R212). -/
def execV6Mask (s : State) : Host.Outcome State Fault Refusal := complete s (opV6Mask s.req)

/-- V6.NET (R217). -/
def execV6Net (full : Bool) (s : State) : Host.Outcome State Fault Refusal := complete s (opV6Net full s.req)

/-- V6.START (R221). -/
def execV6Start (s : State) : Host.Outcome State Fault Refusal := complete s (opV6Start s.req)

/-- V6.END (R223). -/
def execV6End (s : State) : Host.Outcome State Fault Refusal := complete s (opV6End s.req)

/-- V6.TOTAL (R226). -/
def execV6Total (s : State) : Host.Outcome State Fault Refusal := complete s (opV6Total s.req)

/-- V6.SUBNET (R230). -/
def execV6Subnet (full : Bool) (s : State) : Host.Outcome State Fault Refusal := complete s (opV6Subnet full s.req)

end Sys2Proof.Machine
end

