-- ==== Sys2Proof/Machine/Dispatch.lean ====
section
/-! DEFINITION. One arm per constructor of Instr (spec/30_encoding.md R74, R90). -/

namespace Sys2Proof.Machine

def exec (i : Instr) (s : State) : Host.Outcome State Fault Refusal :=
  match i with
  -- IPv4 conversion (spec/41_ipv4_convert.md)
  | .v4Bin => Sys2Proof.Machine.execV4Bin s
  | .v4Bint => Sys2Proof.Machine.execV4Bint s
  | .v4Bin4 => Sys2Proof.Machine.execV4Bin4 s
  | .v4Parse => Sys2Proof.Machine.execV4Parse s
  | .v4Fmt => Sys2Proof.Machine.execV4Fmt s
  -- IPv4 AND/OR pipeline (spec/42_ipv4_pipeline.md)
  | .v4And => Sys2Proof.Machine.execV4And s
  | .v4Inv => Sys2Proof.Machine.execV4Inv s
  | .v4Bcast => Sys2Proof.Machine.execV4Bcast s
  | .v4First wide => Sys2Proof.Machine.execV4First wide s
  | .v4Last wide => Sys2Proof.Machine.execV4Last wide s
  | .v4Subnet wide => Sys2Proof.Machine.execV4Subnet wide s
  -- IPv4 population count (spec/43_popcount_cidr.md)
  | .v4Hosts => Sys2Proof.Machine.execV4Hosts s
  | .v4Cidr => Sys2Proof.Machine.execV4Cidr s
  -- IPv6 conversion (spec/44_ipv6_expand.md)
  | .v6Expand => Sys2Proof.Machine.execV6Expand s
  | .v6Pfx => Sys2Proof.Machine.execV6Pfx s
  | .v6Fmt => Sys2Proof.Machine.execV6Fmt s
  | .v6Bin => Sys2Proof.Machine.execV6Bin s
  -- IPv6 pipeline (spec/45_ipv6_pipeline.md)
  | .v6Mask => Sys2Proof.Machine.execV6Mask s
  | .v6Net full => Sys2Proof.Machine.execV6Net full s
  | .v6Start => Sys2Proof.Machine.execV6Start s
  | .v6End => Sys2Proof.Machine.execV6End s
  | .v6Total => Sys2Proof.Machine.execV6Total s
  | .v6Subnet full => Sys2Proof.Machine.execV6Subnet full s

end Sys2Proof.Machine
end

