-- ==== Sys2Proof/Machine/Execute.lean ====
section
/-! DEFINITION. The engine's EXECUTE (spec/10_state.md R29) and whose move it is (R28, R290, spec/70_reset_and_hazards.md
R280, R286). -/

namespace Sys2Proof.Machine

/-- EXECUTE: decode the latched command word, then run the operation it names; an illegal word completes with the error
response of R256 and no operation runs (R29, R90). -/
def execute (s : State) : Host.Outcome State Fault Refusal :=
  match decodeWord s.req.cmd with
  | .ok i => exec i s
  | .error why => complete s (raiseIllegal why)

/-- EXECUTE where it is enabled, in BUSY; in IDLE and DONE the engine has no move and nothing changes (R29). -/
def engineMove (s : State) : Host.Outcome State Fault Refusal :=
  if s.phase = .busy then execute s else .next s

/-- The move of the agent whose turn it is. With no turn pending the engine moves, so a latched request completes
(R290) and an idle block waits (R280). A SUBMIT offered in BUSY is held by the host: its turn stays pending and the
engine moves (R28, R286). -/
def takeTurn (s : State) : Host.Outcome State Fault Refusal :=
  match s.turns with
  | [] => engineMove s
  | .host (.submit q) :: rest =>
    if s.phase = .busy then engineMove s else .next (submit q { s with turns := rest })
  | .host .read :: rest => readResponse { s with turns := rest }
  | .host .poll :: rest => .next (poll { s with turns := rest })
  | .engine true :: rest => engineMove { s with turns := rest }
  | .engine false :: rest => .next { s with turns := rest }
  | .reset :: rest => .next (resetInput { s with turns := rest })

end Sys2Proof.Machine
end

