-- ==== Sys2Proof/Machine/Step.lean ====
section
/-! DEFINITION. One step of the machine: one move of one agent (spec/10_state.md R28, R29). -/

namespace Sys2Proof.Machine

/-- One step. -/
def step (s : State) : Host.Outcome State Fault Refusal := takeTurn s

/-- The state in which the next step runs the command word w: the host has just submitted the request last latched with
w as its command word, and the engine's turn to complete it comes first. Nothing else changes. -/
def State.withFetchWord (s : State) (nbits w : Nat) : State :=
  { submit { s.req with cmd := BitVec.ofNat 32 (w % 2 ^ nbits) } s with turns := .engine true :: s.turns }

end Sys2Proof.Machine
end

