-- ==== Sys2Proof/Safety.lean ====
section
/-! DEFINITION. The terms the statements use: what a completed request looks like, what a lawful response and a good
state are, which request fields an operation reads and which response fields it writes (spec/30_encoding.md R74). -/

namespace Sys2Proof.Machine

/-! ### Completed requests -/

/-- The state after EXECUTE with response r: PHASE is DONE, RESP is r, everything else is as in s (R29). -/
def doneWith (s : State) (r : Response) : State := { s with phase := .done, resp := some r }

/-- The error response: status and info, every other field zero (R256). -/
def failed (status : BitVec 4) (info : BitVec 8) : Response :=
  { Response.zero with status := status, errinfo := info }

/-- RTLEN is the length of t, RTEXT begins with t and is zero after it (R25, R89). -/
def TextIs (r : Response) (t : Text) : Prop :=
  r.rtlen.toNat = t.length ∧ r.rtext.toList = t ++ List.replicate (128 - t.length) 0

/-- Only R0 and the text result differ from zero; STATUS is OK (R25). -/
def OnlyR0Text (r : Response) : Prop :=
  r = { Response.zero with r0 := r.r0, rtlen := r.rtlen, rtext := r.rtext }

/-- Only R0, FLAGS and the text result differ from zero; STATUS is OK (R25). -/
def OnlyR0TextFlags (r : Response) : Prop :=
  r = { Response.zero with r0 := r.r0, rtlen := r.rtlen, rtext := r.rtext, flags := r.flags }

/-- The text operand `TBUF[0 .. TLEN-1]` (R77). -/
def textOf (q : Request) : Text := q.tbuf.toList.take q.tlen.toNat

/-- TLEN is within TBUF and not zero (R77). -/
abbrev TextPresent (q : Request) : Prop := 0 < q.tlen.toNat ∧ q.tlen.toNat ≤ 128

/-- A decimal field (R81), said by the byte range. -/
abbrev DecimalField (d : Text) : Prop := d ≠ [] ∧ ∀ b ∈ d, 0x30 ≤ b.toNat ∧ b.toNat ≤ 0x39

/-! ### Good states -/

/-- What every response the block produces satisfies: STATUS is one of the four codes (R251), ERRINFO is 0 with OK
(R24), an error response has nothing else (R256), FLAGS[7:6] are 0 (R26), the text fits and is zero after its length
(R25). -/
def Response.Lawful (r : Response) : Prop :=
  r.status.toNat ≤ 3 ∧ (r.status = 0 → r.errinfo = 0) ∧ (r.status ≠ 0 → r = failed r.status r.errinfo) ∧
    r.flags.toNat < 64 ∧ r.rtlen.toNat ≤ 128 ∧ ∀ j : Fin 128, r.rtlen.toNat ≤ j.val → r.rtext[j] = 0

/-- RESP holds a value exactly in DONE (R23, R30), and the value is a lawful response. -/
def Inv (s : State) : Prop :=
  (s.phase = .done ↔ s.resp.isSome = true) ∧ ∀ r, s.resp = some r → r.Lawful

/-- n steps from s, stopping at the first fault or refusal: the host's `Core.run` of this machine, over the model's own
types. -/
def steps : Nat → State → Host.Outcome State Fault Refusal
  | 0, s => .next s
  | n + 1, s =>
    match step s with
    | .next t => steps n t
    | .fault why => .fault why
    | .refused why => .refused why

/-- A safe run: no number of steps from s ends in a fault or a refusal. -/
def SafeRun (s : State) : Prop := ∀ n, ∃ t, steps n s = .next t

/-! ### The read and write columns of the opcode map (R74) -/

/-- Do two requests agree on every field the operation reads (R74's column "reads", R75, R77)? The command word is
not compared: the operation stands for it. -/
def readsAgree : Instr → Request → Request → Prop
  | .v4Bin, q, q' => q.a.extractLsb' 0 8 = q'.a.extractLsb' 0 8
  | .v4Bin4, q, q' | .v4Fmt, q, q' => q.a.extractLsb' 0 32 = q'.a.extractLsb' 0 32
  | .v4Bint, q, q' | .v4Parse, q, q' | .v6Expand, q, q' | .v6Pfx, q, q' => q.tlen = q'.tlen ∧ textOf q = textOf q'
  | .v4And, q, q' | .v4Bcast, q, q' | .v4First _, q, q' | .v4Last _, q, q' | .v4Subnet _, q, q' =>
    q.a.extractLsb' 0 32 = q'.a.extractLsb' 0 32 ∧ q.b.extractLsb' 0 32 = q'.b.extractLsb' 0 32
  | .v4Inv, q, q' | .v4Hosts, q, q' | .v4Cidr, q, q' => q.b.extractLsb' 0 32 = q'.b.extractLsb' 0 32
  | .v6Fmt, q, q' | .v6Bin, q, q' => q.a = q'.a
  | .v6Mask, q, q' | .v6Total, q, q' => q.p = q'.p
  | .v6Net _, q, q' | .v6Start, q, q' | .v6End, q, q' | .v6Subnet _, q, q' => q.a = q'.a ∧ q.p = q'.p

/-- Is every field outside R74's column "writes" zero in r, STATUS and ERRINFO apart (R25)? -/
def writesOnly : Instr → Response → Prop
  | .v4Bin, r | .v4Bint, r | .v4Bin4, r | .v4Parse, r | .v4Fmt, r | .v6Fmt, r | .v6Bin, r | .v6Start, r
  | .v6End, r =>
    r = { Response.zero with status := r.status, errinfo := r.errinfo, r0 := r.r0, rtlen := r.rtlen, rtext := r.rtext }
  | .v4And, r | .v4Inv, r | .v4Bcast, r | .v4First _, r | .v4Last _, r | .v6Expand, r | .v6Net _, r =>
    r = { Response.zero with
      status := r.status, errinfo := r.errinfo, r0 := r.r0, rtlen := r.rtlen, rtext := r.rtext, flags := r.flags }
  | .v4Subnet _, r | .v6Subnet _, r =>
    r = { Response.zero with
      status := r.status, errinfo := r.errinfo, r0 := r.r0, r1 := r.r1, r2 := r.r2, r3 := r.r3, rcount := r.rcount,
      rpfx := r.rpfx, flags := r.flags }
  | .v4Hosts, r =>
    r = { Response.zero with
      status := r.status, errinfo := r.errinfo, rcount := r.rcount, rpfx := r.rpfx, rtlen := r.rtlen, rtext := r.rtext,
      flags := r.flags }
  | .v4Cidr, r =>
    r = { Response.zero with
      status := r.status, errinfo := r.errinfo, rpfx := r.rpfx, rtlen := r.rtlen, rtext := r.rtext, flags := r.flags }
  | .v6Pfx, r =>
    r = { Response.zero with
      status := r.status, errinfo := r.errinfo, rpfx := r.rpfx, rtlen := r.rtlen, rtext := r.rtext }
  | .v6Mask, r =>
    r = { Response.zero with
      status := r.status, errinfo := r.errinfo, r0 := r.r0, rpfx := r.rpfx, rtlen := r.rtlen, rtext := r.rtext }
  | .v6Total, r =>
    r = { Response.zero with
      status := r.status, errinfo := r.errinfo, rcount := r.rcount, rpfx := r.rpfx, rtlen := r.rtlen, rtext := r.rtext }

/-! ### The errors and flags of an operation -/

/-- The operations that can report a ParseError (R255). -/
def raisesParse : Instr → Bool
  | .v4Bint | .v4Parse | .v6Expand | .v6Pfx => true
  | .v4Bin | .v4Bin4 | .v4Fmt | .v4And | .v4Inv | .v4Bcast | .v4First _ | .v4Last _ | .v4Subnet _ | .v4Hosts | .v4Cidr
  | .v6Fmt | .v6Bin | .v6Mask | .v6Net _ | .v6Start | .v6End | .v6Total | .v6Subnet _ => false

/-- The operations that can report a RangeError (R255). -/
def raisesRange : Instr → Bool
  | .v4Bint | .v4Parse | .v6Pfx | .v6Mask | .v6Net _ | .v6Start | .v6End | .v6Total | .v6Subnet _ => true
  | .v4Bin | .v4Bin4 | .v4Fmt | .v4And | .v4Inv | .v4Bcast | .v4First _ | .v4Last _ | .v4Subnet _ | .v4Hosts | .v4Cidr
  | .v6Expand | .v6Fmt | .v6Bin => false

/-- The bits of FLAGS an operation's rule names (R26). -/
def namedFlags : Instr → BitVec 8
  | .v4And | .v4Inv | .v4Bcast | .v4Cidr => 0b000001
  | .v4First _ => 0b000011
  | .v4Last _ => 0b000101
  | .v4Subnet _ => 0b001111
  | .v4Hosts => 0b001001
  | .v6Expand => 0b100000
  | .v6Net _ | .v6Subnet _ => 0b010000
  | .v4Bin | .v4Bint | .v4Bin4 | .v4Parse | .v4Fmt | .v6Pfx | .v6Fmt | .v6Bin | .v6Mask | .v6Start | .v6End
  | .v6Total => 0

end Sys2Proof.Machine
end

