-- ==== Sys2Proof/Certificates/Slice0/Obligations.lean ====
section
/-! DEFINITION. The statements about the subnet engine block, for the provers. Each docstring names the rule of spec/
it formalises. `doneWith s r` is s with PHASE = DONE and RESP = r and nothing else changed, so every statement of that
form says the frame too: REQ, the pending turns and the host's answers stay as they are. -/

open Sys2Proof Sys2Proof.Machine

/-! ### Command words -/

/-- R74: command words written out from the opcode map, one for each family and mode bit, decode to the row they stand
for. -/
def Obligations.SpecCommandWordsDecode : Prop :=
  decodeWord 0x00000010 = .ok .v4Bin ∧ decodeWord 0x00000013 = .ok .v4Parse ∧ decodeWord 0x00000020 = .ok .v4And ∧
  decodeWord 0x00000123 = .ok (.v4First true) ∧ decodeWord 0x00000024 = .ok (.v4Last false) ∧
  decodeWord 0x00000128 = .ok (.v4Subnet true) ∧ decodeWord 0x00000030 = .ok .v4Hosts ∧
  decodeWord 0x00000040 = .ok .v6Expand ∧ decodeWord 0x00000054 = .ok .v6Total ∧
  decodeWord 0x00000251 = .ok (.v6Net true) ∧ decodeWord 0x00000058 = .ok (.v6Subnet false)

/-- R91: a word decodes to an operation exactly where it is that operation's encoding. From right to left it is the
round trip for every operation and mode bit; from left to right it says that no bit of a legal word is dropped. -/
def Obligations.DecodeInvertsEncode : Prop :=
  ∀ (i : Instr) (w : CmdWord), decodeWord w = .ok i ↔ w = encode i

/-- R91: a word decodes to a row exactly where the opcode is in the map, RSV is 0 and each set mode bit is allowed; the
row is that of its opcode and mode bits. Every other word is an illegal command. -/
def Obligations.DecodeAcceptsExactlyLegalWords : Prop :=
  ∀ w : CmdWord,
    (commandWellFormed w = true → ∃ i, decodeWord w = .ok i ∧ opcodeOf i = opcField w ∧ wideOf i = wideBit w ∧
      fullOf i = fullBit w) ∧
    (commandWellFormed w = false → ∃ why, decodeWord w = .error why)

/-- R72, R90, R252: the checks run in their written order and the first failing one decides the response; a legal request
runs the operation its word names. -/
def Obligations.IllegalRequestsAnswerInCheckOrder : Prop :=
  ∀ (s : State) (rest : List Turn), s.phase = .busy → s.turns = .engine true :: rest →
    let ill (info : BitVec 8) := step s = .next { doneWith s (failed 3 info) with turns := rest }
    let cmd := s.req.cmd
    (opcodeKnown cmd = false → ill 0x01) ∧
    (opcodeKnown cmd = true → reservedClear cmd = false → ill 0x02) ∧
    (opcodeKnown cmd = true → reservedClear cmd = true → wideAllowed cmd = false → ill 0x03) ∧
    (opcodeKnown cmd = true → reservedClear cmd = true → wideAllowed cmd = true → fullAllowed cmd = false → ill 0x03) ∧
    (commandWellFormed cmd = true → textFits cmd s.req.tlen = false → ill 0x04) ∧
    (requestWellFormed cmd s.req.tlen = true →
      ∃ i r, encode i = cmd ∧ exec i s = .next (doneWith s r) ∧ r.status ≠ 3 ∧
        step s = .next { doneWith s r with turns := rest })

/-- In BUSY, where the engine moves, the step is exec of the decoded operation (R29). Which turn lets the engine move is the
model's schedule (DESIGN CHOICE, log entry 3), not the spec's words: its own turn, which alone is taken off; no turn
pending; or a SUBMIT that the host must hold, whose turn stays. -/
def Obligations.StepRunsDecodedOperation : Prop :=
  ∀ (s : State) (rest : List Turn) (q : Request) (i : Instr), s.phase = .busy → decodeWord s.req.cmd = .ok i →
    (s.turns = [] → step s = exec i s) ∧
    (s.turns = .engine true :: rest → step s = exec i { s with turns := rest }) ∧
    (s.turns = .host (.submit q) :: rest → step s = exec i s)

/-! ### EXECUTE as a whole -/

/-- R29: every operation completes in every state, whatever the operands; its response is a function of the latched
request alone; nothing but PHASE and RESP changes. -/
def Obligations.EveryOperationCompletesFromRequestAlone : Prop :=
  ∀ i : Instr, ∃ op : Request → Response, ∀ s : State, exec i s = .next (doneWith s (op s.req))

/-- R31: requests that agree on the fields the operation reads get the same response. -/
def Obligations.ResponseDependsOnReadFieldsOnly : Prop :=
  ∀ (i : Instr) (s t : State), readsAgree i s.req t.req →
    ∃ r, exec i s = .next (doneWith s r) ∧ exec i t = .next (doneWith t r)

/-- R25: a field that the operation does not write is zero, and so are the bytes of RTEXT at RTLEN and after, for an
error as for a success. -/
def Obligations.UnwrittenResponseFieldsAreZero : Prop :=
  ∀ (i : Instr) (s : State), ∃ r, exec i s = .next (doneWith s r) ∧ writesOnly i r ∧
    ∀ j : Fin 128, r.rtlen.toNat ≤ j.val → r.rtext[j] = 0

/-- R256: an operation that raises answers STATUS and ERRINFO and nothing else, and PHASE becomes DONE; R251: STATUS is
one of the four codes. -/
def Obligations.ErrorResponseCarriesStatusAndInfoOnly : Prop :=
  ∀ (i : Instr) (s : State), ∃ r, exec i s = .next (doneWith s r) ∧ r.status.toNat ≤ 3 ∧
    (r.status = 0 → r.errinfo = 0) ∧ (r.status ≠ 0 → r = failed r.status r.errinfo)

/-- R26, R255, R260: over all operations: only V4.BINT, V4.PARSE, V6.EXPAND and V6.PFX report a ParseError, only V4.BINT,
V4.PARSE, V6.PFX and the readers of P a RangeError, none an illegal command while TLEN fits; and each sets only the flags
its rule names. -/
def Obligations.ErrorsAndFlagsOnlyWhereNamed : Prop :=
  ∀ (i : Instr) (s : State), s.req.tlen.toNat ≤ 128 → ∃ r, exec i s = .next (doneWith s r) ∧
    (r.status = 0 ∨ r.status = 1 ∧ raisesParse i = true ∨ r.status = 2 ∧ raisesRange i = true) ∧
    r.flags &&& ~~~(namedFlags i) = 0

/-! ### The handshake -/

/-- R33 in part, and the model's own reset values (log entries 1 and 3): PHASE is IDLE, RESP holds no value, REQ is
zero, nothing is pending; the block waits for the first SUBMIT. -/
def Obligations.ResetStateIsIdleAndWaits : Prop :=
  State.reset.phase = .idle ∧ State.reset.resp = none ∧ State.reset.req = Request.zero ∧
    State.reset.turns = [] ∧ step State.reset = .next State.reset

/-- R28: SUBMIT is enabled in IDLE and DONE; it latches the request, PHASE becomes BUSY and the previous RESP is gone. -/
def Obligations.SubmitLatchesRequest : Prop :=
  ∀ (s : State) (q : Request) (rest : List Turn), s.turns = .host (.submit q) :: rest →
    s.phase = .idle ∨ s.phase = .done →
    step s = .next { s with req := q, phase := .busy, resp := none, turns := rest }

/-- R22: a SUBMIT copies the whole request; between one SUBMIT and the next nothing changes REQ, a RESET apart (R280). -/
def Obligations.OnlySubmitOrResetChangesRequest : Prop :=
  (∀ (s : State) (q : Request) (rest : List Turn), s.turns = .host (.submit q) :: rest → s.phase ≠ .busy →
    ∃ t, step s = .next t ∧ t.req = q) ∧
  ∀ s t : State, step s = .next t → t.req ≠ s.req →
    (∃ q rest, s.turns = .host (.submit q) :: rest ∧ s.phase ≠ .busy ∧ t.req = q) ∨
    ∃ rest, s.turns = .reset :: rest

/-- R286: a SUBMIT offered in BUSY waits until DONE: the engine completes the latched request first. That the offer stays
first in the list of turns while it waits, and is taken by the next step, is the model's schedule (log entry 3). -/
def Obligations.SubmitOfferedWhileBusyIsHeld : Prop :=
  ∀ (s : State) (q : Request) (rest : List Turn), s.turns = .host (.submit q) :: rest → s.phase = .busy →
    ∃ r, step s = .next (doneWith s r) ∧
      step (doneWith s r) = .next { s with req := q, phase := .busy, resp := none, turns := rest }

/-- R28: POLL is always enabled, returns PHASE and changes nothing of the block. -/
def Obligations.PollReturnsPhaseAndChangesNothing : Prop :=
  ∀ (s : State) (rest : List Turn), s.turns = .host .poll :: rest →
    step s = .next { s with turns := rest, answers := .phase s.phase :: s.answers }

/-- R28, R57: a READ in DONE, whatever turns follow, returns RESP and changes nothing of the block, so a second READ returns
the same value. -/
def Obligations.ReadsInDoneReturnTheSameResponse : Prop :=
  (∀ (s : State) (r : Response) (rest : List Turn), s.phase = .done → s.resp = some r → s.turns = .host .read :: rest →
    step s = .next { s with turns := rest, answers := .response r :: s.answers }) ∧
  ∀ (s : State) (r : Response) (rest : List Turn), s.phase = .done → s.resp = some r →
    s.turns = .host .read :: .host .read :: rest →
    steps 2 s =
      .next { s with turns := rest, answers := .response r :: .response r :: s.answers }

/-- R30, R285: from a state in which RESP holds a value exactly in DONE, a step faults exactly where the host reads RESP
outside DONE, and no step is refused. -/
def Obligations.StepFaultsExactlyOnReadOutsideDone : Prop :=
  ∀ s : State, Inv s →
    (step s = .fault .readOutsideDone ↔ s.phase ≠ .done ∧ ∃ rest, s.turns = .host .read :: rest) ∧
    ∀ why, step s ≠ .refused why

/-- R280: RESET may come in any phase and makes PHASE IDLE and RESP without a value; that REQ becomes zero (log entry 1)
and that the pending turns and the given answers stay (log entry 3) is the model's choice. -/
def Obligations.ResetInputReturnsToIdle : Prop :=
  ∀ (s : State) (rest : List Turn), s.turns = .reset :: rest →
    step s = .next { State.reset with turns := rest, answers := s.answers }

/-- R281: a RESET in BUSY leaves no response and one in DONE discards it; the request submitted again gets the response
it would have had. The turns it is said with are the model's schedule (log entry 3). -/
def Obligations.ResubmissionAfterResetGivesSameResponse : Prop :=
  (∀ (s : State) (rest : List Turn), s.turns = .reset :: rest →
    ∃ t, step s = .next t ∧ t.phase = .idle ∧ t.resp = none) ∧
  ∀ (s : State) (q : Request), s.phase ≠ .busy → ∃ r,
    (∃ t, steps 2 { s with turns := [.host (.submit q), .engine true] } = .next t ∧
      t.phase = .done ∧ t.resp = some r) ∧
    (∃ t, steps 2 { s with turns := [.host (.submit q), .reset] } = .next t ∧ t.phase = .idle ∧ t.resp = none) ∧
    ∃ t, steps 4
        { s with turns := [.host (.submit q), .reset, .host (.submit q), .engine true] } = .next t ∧
      t.phase = .done ∧ t.resp = some r

/-- R23, R28, R29, R57, R280: PHASE and RESP change only by these moves: EXECUTE from BUSY to DONE, SUBMIT to BUSY, RESET to
IDLE. An engine turn outside BUSY, a LATENCY turn, and a step outside BUSY with no turn pending change nothing of the block;
that such turns exist is the model's schedule (log entries 3, 4, 13). -/
def Obligations.PhaseChangesOnlyByHandshakeMoves : Prop :=
  (∀ s t : State, step s = .next t → t.phase ≠ s.phase ∨ t.resp ≠ s.resp →
    (s.phase = .busy ∧ t.phase = .done ∧ t.resp.isSome = true ∧ t.req = s.req ∧
      (s.turns = [] ∨ ∃ rest, s.turns = .engine true :: rest ∨ ∃ q, s.turns = .host (.submit q) :: rest)) ∨
    (s.phase ≠ .busy ∧ t.phase = .busy ∧ t.resp = none ∧
      ∃ q rest, s.turns = .host (.submit q) :: rest ∧ t.req = q ∧ t.turns = rest) ∨
    (t.phase = .idle ∧ t.resp = none ∧ ∃ rest, s.turns = .reset :: rest ∧ t.turns = rest)) ∧
  (∀ (s : State) (completes : Bool) (rest : List Turn), s.phase ≠ .busy → s.turns = .engine completes :: rest →
    step s = .next { s with turns := rest }) ∧
  (∀ (s : State) (rest : List Turn), s.turns = .engine false :: rest → step s = .next { s with turns := rest }) ∧
  ∀ s : State, s.phase ≠ .busy → s.turns = [] → step s = .next s

/-- R290 in the model's terms (the schedule: log entries 3, 4): a BUSY phase ends with the response of the latched request.
Let `pre` be the turns before the completing move, which is an engine turn that completes, a SUBMIT that is held, or the end
of the list; let no RESET and no READ stand in `pre`. Then DONE is reached after at most one step more than `pre` is long,
however many LATENCY steps and polls it holds, and of what follows `pre` at most the completing engine turn is used up, so a
READ or RESET standing there is still to come. -/
def Obligations.BusyPhaseEndsWithItsResponse : Prop :=
  ∀ s : State, s.phase = .busy →
    ∃ r, step { s with turns := [] } = .next (doneWith { s with turns := [] } r) ∧
      ∀ pre post : List Turn, s.turns = pre ++ post → (∀ u ∈ pre, u ≠ .reset ∧ u ≠ .host .read) →
        (post = [] ∨ ∃ rest, post = .engine true :: rest ∨ ∃ q, post = .host (.submit q) :: rest) →
        ∃ n t, 0 < n ∧ n ≤ pre.length + 1 ∧ steps n s = .next t ∧
          t.phase = .done ∧ t.resp = some r ∧ t.req = s.req ∧
          ((∃ left, t.turns = left ++ post) ∨ post = .engine true :: t.turns)

/-- The invariant (R23 to R26, R30, R251, R256): a step from a good state leads to a good state. -/
def Obligations.StepKeepsInv : Prop :=
  ∀ s t : State, Inv s → step s = .next t → Inv t

/-- The invariant holds after reset. -/
def Obligations.ResetMeetsInv : Prop := Inv State.reset

/-- R285: from a good state, a host that never reads never makes the block fault; the block itself refuses nothing. -/
def Obligations.RunWithoutReadsIsSafe : Prop :=
  ∀ s : State, Inv s → (∀ u ∈ s.turns, u ≠ .host .read) → SafeRun s

/-! ### IPv4 conversion -/

/-- R100: V4.BIN: R0 is the octet A[7:0], the text its eight bits, most significant first; every other field is zero. -/
def Obligations.V4BinGivesOctetBits : Prop :=
  ∀ s : State, ∃ r, exec .v4Bin s = .next (doneWith s r) ∧ OnlyR0Text r ∧
    r.r0.toNat = s.req.a.toNat % 256 ∧ r.rtlen = 8 ∧
    ∀ j : Fin 128, j.val < 8 → r.rtext[j] = if s.req.a.getLsbD (7 - j.val) then 0x31 else 0x30

/-- R101: V4.BINT: empty text is ParseError(0xFF), a non-digit ParseError(0x00), a value above 255 RangeError(0x00), in this
order; else R0 is the value and the text its eight bits. -/
def Obligations.V4BintConvertsDecimalOctet : Prop :=
  ∀ s : State, s.req.tlen.toNat ≤ 128 →
    (textOf s.req = [] → exec .v4Bint s = .next (doneWith s (failed 1 0xFF))) ∧
    (textOf s.req ≠ [] → ¬ DecimalField (textOf s.req) → exec .v4Bint s = .next (doneWith s (failed 1 0x00))) ∧
    (DecimalField (textOf s.req) → 255 < decval (textOf s.req) →
      exec .v4Bint s = .next (doneWith s (failed 2 0x00))) ∧
    (DecimalField (textOf s.req) → decval (textOf s.req) ≤ 255 →
      ∃ r, exec .v4Bint s = .next (doneWith s r) ∧ OnlyR0Text r ∧ r.r0.toNat = decval (textOf s.req) ∧ r.rtlen = 8 ∧
        ∀ j : Fin 128, j.val < 8 → r.rtext[j] = if (decval (textOf s.req)).testBit (7 - j.val) then 0x31 else 0x30)

/-- R102: V4.BIN4: R0 is A[31:0], the text its 32 bits, most significant first, which are the four octets' strings in
order. -/
def Obligations.V4Bin4ConcatenatesOctetBits : Prop :=
  ∀ s : State, ∃ r, exec .v4Bin4 s = .next (doneWith s r) ∧ OnlyR0Text r ∧ r.r0.toNat = s.req.a.toNat % 2 ^ 32 ∧
    r.rtlen = 32 ∧ (∀ j : Fin 128, j.val < 32 → r.rtext[j] = if s.req.a.getLsbD (31 - j.val) then 0x31 else 0x30) ∧
    let x : Addr4 := s.req.a.extractLsb' 0 32
    TextIs r (bin x) ∧ TextIs r (bin (octet x 0) ++ bin (octet x 1) ++ bin (octet x 2) ++ bin (octet x 3))

/-- R103: V4.PARSE: empty text or a field count other than four is ParseError(0xFF), the first non-decimal field i
ParseError(i), then the first field i above 255 RangeError(i); else R0 is the address and the text its canonical form. -/
def Obligations.V4ParseReadsDottedDecimal : Prop :=
  ∀ s : State, s.req.tlen.toNat ≤ 128 →
    let t := textOf s.req
    let f (i : Nat) := (split 0x2E t).getD i []
    (t = [] ∨ (split 0x2E t).length ≠ 4 → exec .v4Parse s = .next (doneWith s (failed 1 0xFF))) ∧
    (∀ i < 4, (split 0x2E t).length = 4 → (∀ j < i, DecimalField (f j)) → ¬ DecimalField (f i) → t ≠ [] →
      exec .v4Parse s = .next (doneWith s (failed 1 (BitVec.ofNat 8 i)))) ∧
    (∀ i < 4, (split 0x2E t).length = 4 → (∀ j < 4, DecimalField (f j)) → (∀ j < i, decval (f j) ≤ 255) →
      255 < decval (f i) → exec .v4Parse s = .next (doneWith s (failed 2 (BitVec.ofNat 8 i)))) ∧
    ((split 0x2E t).length = 4 → (∀ j < 4, DecimalField (f j) ∧ decval (f j) ≤ 255) →
      ∃ r, exec .v4Parse s = .next (doneWith s r) ∧ OnlyR0Text r ∧
        r.r0.toNat = decval (f 0) * 2 ^ 24 + decval (f 1) * 2 ^ 16 + decval (f 2) * 2 ^ 8 + decval (f 3) ∧
        TextIs r (dotted (r.r0.extractLsb' 0 32)))

/-- R104: V4.FMT: R0 is A[31:0], the text its four octets in decimal, separated by dots; every other field is zero. -/
def Obligations.V4FmtWritesDottedDecimal : Prop :=
  ∀ s : State, ∃ r, exec .v4Fmt s = .next (doneWith s r) ∧ OnlyR0Text r ∧ r.r0.toNat = s.req.a.toNat % 2 ^ 32 ∧
    TextIs r (dec (s.req.a.toNat / 2 ^ 24 % 256) ++ [0x2E] ++ dec (s.req.a.toNat / 2 ^ 16 % 256) ++ [0x2E] ++
      dec (s.req.a.toNat / 2 ^ 8 % 256) ++ [0x2E] ++ dec (s.req.a.toNat % 256))

/-- R105: for a text that V4.PARSE accepts and whose fields have no leading zeros, V4.PARSE writes the text back, and so
does V4.FMT of its R0. -/
def Obligations.DottedDecimalRoundTrip : Prop :=
  ∀ (s u : State) (r : Response), s.req.tlen.toNat ≤ 128 → exec .v4Parse s = .next (doneWith s r) → r.status = 0 →
    (∀ f ∈ split 0x2E (textOf s.req), f = [0x30] ∨ f.head? ≠ some 0x30) → u.req.a = r.r0 →
    TextIs r (textOf s.req) ∧ ∃ r', exec .v4Fmt u = .next (doneWith u r') ∧ TextIs r' (textOf s.req)

/-! ### IPv4 pipeline -/

/-- R134, R136, R138: V4.AND, V4.INV and V4.BCAST; NONCONTIG is FLAGS bit 0 (R262). -/
def Obligations.V4AndInvBcastResults : Prop :=
  ∀ s : State,
    let a : Addr4 := s.req.a.extractLsb' 0 32
    let m : Addr4 := s.req.b.extractLsb' 0 32
    let gives (i : Instr) (x : Addr4) := ∃ r, exec i s = .next (doneWith s r) ∧ OnlyR0TextFlags r ∧
      r.r0 = x.setWidth 128 ∧ TextIs r (dotted x) ∧ r.flags = if m = ones (popcount m) 32 then 0 else 1
    gives .v4And (a &&& m) ∧ gives .v4Inv (~~~m) ∧ gives .v4Bcast ((a &&& m) ||| ~~~m)

/-- R131, R132, R133: the network octet by octet, the inverted mask as 255 minus each octet, the broadcast as a OR NOT m;
beside them the ones of a mask and of its inverse add up to 32 (R149). -/
def Obligations.PipelineFunctionsOctetwise : Prop :=
  ∀ (a m : Addr4),
    (∀ i, i < 4 → octet (net4 a m) i = octet a i &&& octet m i ∧
      (octet (inv4 m) i).toNat = 255 - (octet m i).toNat) ∧
    inv4 m = ~~~m ∧ bcast4 a m = net4 a m ||| inv4 m ∧ bcast4 a m = a ||| ~~~m ∧ popcount m + popcount (inv4 m) = 32

/-- R13, R262: a mask is contiguous exactly where it is 2^32 - 2^(32-n) for some n of 0..32, and then n is its count of
ones. -/
def Obligations.ContiguousMasksAreTheOnesMasks : Prop :=
  ∀ m : Addr4, (noncontigFlag m = false ↔ ∃ n, n ≤ 32 ∧ m.toNat = 2 ^ 32 - 2 ^ (32 - n)) ∧
    ∀ n, n ≤ 32 → m.toNat = 2 ^ 32 - 2 ^ (32 - n) → popcount m = n

/-- R140: V4.FIRST in both modes: R0, FOVF (FLAGS bit 1), NONCONTIG and the text (R130, R135, R263). At the edge the last
field reads 256 or is the wrapped octet, as V4_EDGE_TEXT says. -/
def Obligations.V4FirstResult : Prop :=
  ∀ (s : State) (wide : Bool),
    let m : Addr4 := s.req.b.extractLsb' 0 32
    let n := (s.req.a.toNat &&& s.req.b.toNat) % 2 ^ 32
    ∃ r, exec (.v4First wide) s = .next (doneWith s r) ∧ OnlyR0TextFlags r ∧
      (r.r0.toNat = if wide then (n + 1) % 2 ^ 32 else n - n % 256 + (n % 256 + 1) % 256) ∧
      (r.flags.getLsbD 1 = true ↔ if wide then n = 2 ^ 32 - 1 else n % 256 = 255) ∧
      (r.flags.getLsbD 0 = true ↔ m ≠ ones (popcount m) 32) ∧ r.flags.toNat < 4 ∧
      TextIs r
        (if wide = false ∧ n % 256 = 255 ∧ Config.v4EdgeText = .unwrapped then
          dec (n / 2 ^ 24) ++ [0x2E] ++ dec (n / 2 ^ 16 % 256) ++ [0x2E] ++ dec (n / 2 ^ 8 % 256) ++ [0x2E] ++ dec 256
        else dotted (r.r0.extractLsb' 0 32))

/-- R143: V4.LAST in both modes: R0, LUNF (FLAGS bit 2), NONCONTIG and the text (R130, R137, R264). At the edge the last
field reads -1 or is the wrapped octet, as V4_EDGE_TEXT says. -/
def Obligations.V4LastResult : Prop :=
  ∀ (s : State) (wide : Bool),
    let m : Addr4 := s.req.b.extractLsb' 0 32
    let b := (s.req.a.extractLsb' 0 32 ||| ~~~m).toNat
    ∃ r, exec (.v4Last wide) s = .next (doneWith s r) ∧ OnlyR0TextFlags r ∧
      (r.r0.toNat = if wide then (b + (2 ^ 32 - 1)) % 2 ^ 32 else b - b % 256 + (b % 256 + 255) % 256) ∧
      (r.flags.getLsbD 2 = true ↔ if wide then b = 0 else b % 256 = 0) ∧
      (r.flags.getLsbD 0 = true ↔ m ≠ ones (popcount m) 32) ∧ r.flags.getLsbD 1 = false ∧ r.flags.toNat < 8 ∧
      TextIs r
        (if wide = false ∧ b % 256 = 0 ∧ Config.v4EdgeText = .unwrapped then
          dec (b / 2 ^ 24) ++ [0x2E] ++ dec (b / 2 ^ 16 % 256) ++ [0x2E] ++ dec (b / 2 ^ 8 % 256) ++ [0x2E] ++ decInt (-1)
        else dotted (r.r0.extractLsb' 0 32))

/-- R146: V4.SUBNET: network, broadcast, first and last usable address in both modes, count, prefix length and the four
flags, and no text; field by field they are what the single stages give on the same operands (R134, R138, R140, R143,
R161, R163). -/
def Obligations.V4SubnetComposesItsStages : Prop :=
  ∀ (s : State) (wide : Bool),
    let a : Addr4 := s.req.a.extractLsb' 0 32
    let m : Addr4 := s.req.b.extractLsb' 0 32
    let n := (a &&& m).toNat
    let c := (a ||| ~~~m).toNat
    ∃ r n' b' f' l' h' c',
      exec .v4And s = .next (doneWith s n') ∧ exec .v4Bcast s = .next (doneWith s b') ∧
      exec (.v4First wide) s = .next (doneWith s f') ∧ exec (.v4Last wide) s = .next (doneWith s l') ∧
      exec .v4Hosts s = .next (doneWith s h') ∧ exec .v4Cidr s = .next (doneWith s c') ∧
      exec (.v4Subnet wide) s = .next (doneWith s r) ∧
      r = { Response.zero with
        r0 := n'.r0, r1 := b'.r0, r2 := f'.r0, r3 := l'.r0, rcount := h'.rcount, rpfx := c'.rpfx,
        flags := n'.flags ||| f'.flags ||| l'.flags ||| h'.flags } ∧
      r.r0.toNat = n ∧ r.r1.toNat = c ∧
      (r.r2.toNat = if wide then (n + 1) % 2 ^ 32 else n - n % 256 + (n % 256 + 1) % 256) ∧
      (r.r3.toNat = if wide then (c + (2 ^ 32 - 1)) % 2 ^ 32 else c - c % 256 + (c % 256 + 255) % 256) ∧
      r.rcount.toInt = 2 ^ (32 - popcount m) - 2 ∧ r.rpfx.toNat = popcount m ∧
      (r.flags.getLsbD 0 = true ↔ m ≠ ones (popcount m) 32) ∧
      (r.flags.getLsbD 1 = true ↔ if wide then n = 2 ^ 32 - 1 else n % 256 = 255) ∧
      (r.flags.getLsbD 2 = true ↔ if wide then c = 0 else c % 256 = 0) ∧
      (r.flags.getLsbD 3 = true ↔ 31 ≤ popcount m)

/-- R148: the two usable-range modes agree exactly off the edge, and a contiguous mask of prefix length at most 31
never reaches the edge: there the first usable address is network + 1 and the last is broadcast - 1. With W = 1 that
holds for every mask, modulo 2^32. -/
def Obligations.UsableRangeModesAgreeOffTheEdge : Prop :=
  ∀ a m : Addr4,
    ((firstUsable (net4 a m) false).1 = (firstUsable (net4 a m) true).1 ↔ octet (net4 a m) 3 ≠ 255) ∧
    ((lastUsable (bcast4 a m) false).1 = (lastUsable (bcast4 a m) true).1 ↔ octet (bcast4 a m) 3 ≠ 0) ∧
    ((firstUsable (net4 a m) true).1 = net4 a m + 1 ∧ (lastUsable (bcast4 a m) true).1 = bcast4 a m - 1) ∧
    ∀ n, n ≤ 31 → m = ones n 32 → ∀ wide,
      (firstUsable (net4 a m) wide).1.toNat = (net4 a m).toNat + 1 ∧
      (lastUsable (bcast4 a m) wide).1.toNat + 1 = (bcast4 a m).toNat

/-! ### Population count -/

/-- R161, R166: V4.HOSTS: the count is 2^(32-k) - 2 as a signed integer for all 33 values of k, RPFX is k, HLIM is FLAGS
bit 3. -/
def Obligations.V4HostsCountsExactly : Prop :=
  ∀ s : State,
    let m : Addr4 := s.req.b.extractLsb' 0 32
    let k := popcount m
    ∃ r, exec .v4Hosts s = .next (doneWith s r) ∧
      r = { Response.zero with rcount := r.rcount, rpfx := r.rpfx, rtlen := r.rtlen, rtext := r.rtext, flags := r.flags } ∧
      k ≤ 32 ∧ r.rcount.toInt = 2 ^ (32 - k) - 2 ∧ r.rpfx.toNat = k ∧ TextIs r (decInt (2 ^ (32 - k) - 2)) ∧
      r.flags = (if m = ones k 32 then 0 else 1) ||| if 31 ≤ k then 8 else 0

/-- R163: V4.CIDR: RPFX is the count of ones of the mask, the text a slash and that count, NONCONTIG whether the mask is
not contiguous; every other field is zero. -/
def Obligations.V4CidrEncodesOnesCount : Prop :=
  ∀ s : State,
    let m : Addr4 := s.req.b.extractLsb' 0 32
    ∃ r, exec .v4Cidr s = .next (doneWith s r) ∧
      r = { Response.zero with rpfx := r.rpfx, rtlen := r.rtlen, rtext := r.rtext, flags := r.flags } ∧
      r.rpfx.toNat = popcount m ∧ TextIs r (0x2F :: dec (popcount m)) ∧
      r.flags = if m = ones (popcount m) 32 then 0 else 1

/-! ### IPv6 conversion -/

/-- R182, R183, R184, R185: the expansion of a text: the first bad character, then the first over-long field, then gap
filling at the first empty field with 8 - nexp zero groups, later empty fields adding none, then the group count. -/
def Obligations.ExpansionFillsTheFirstGap : Prop :=
  ∀ s : Text, s ≠ [] →
    let fs := split 0x3A s
    let okByte (b : Byte) := isHex b = true ∨ b = 0x3A
    let val (f : Text) : Seg := BitVec.ofNat 16 (hexval f)
    (∀ u b v, s = u ++ b :: v → (∀ c ∈ u, okByte c) → ¬ okByte b →
      expand6 s = .error { status := 1, info := BitVec.ofNat 8 (u.count 0x3A) }) ∧
    ((∀ b ∈ s, okByte b) →
      (∀ u f v, fs = u ++ f :: v → (∀ g ∈ u, g.length ≤ 4) → 4 < f.length →
        expand6 s = .error { status := 1, info := BitVec.ofNat 8 u.length }) ∧
      ((∀ f ∈ fs, f.length ≤ 4) →
        ((∀ f ∈ fs, f ≠ []) → (fs.length ≠ 8 → expand6 s = .error { status := 1, info := 0xFF }) ∧
          (fs.length = 8 → ∃ x, expand6 s = .ok x ∧ ∀ i, i < 8 → seg x i = val (fs.getD i []))) ∧
        ∀ u v, fs = u ++ [] :: v → (∀ f ∈ u, f ≠ []) →
          let w := v.filter fun f => !f.isEmpty
          let g := u.map val ++ List.replicate (8 - (u.length + w.length)) 0 ++ w.map val
          (g.length ≠ 8 → expand6 s = .error { status := 1, info := 0xFF }) ∧
          (g.length = 8 → ∃ x, expand6 s = .ok x ∧ ∀ i, i < 8 → seg x i = g.getD i 0)))

/-- R186: V6.EXPAND: ParseError(0xFF) on empty text, the expansion's error, or R0, the canonical text and GAPQ (FLAGS
bit 5). -/
def Obligations.V6ExpandResult : Prop :=
  ∀ s : State, s.req.tlen.toNat ≤ 128 →
    (textOf s.req = [] → exec .v6Expand s = .next (doneWith s (failed 1 0xFF))) ∧
    (∀ e, textOf s.req ≠ [] → expand6 (textOf s.req) = .error e →
      e.status = 1 ∧ exec .v6Expand s = .next (doneWith s (failed 1 e.info))) ∧
    ∀ x, textOf s.req ≠ [] → expand6 (textOf s.req) = .ok x →
      ∃ r, exec .v6Expand s = .next (doneWith s r) ∧ OnlyR0TextFlags r ∧ r.r0 = x ∧ TextIs r (colonhex x) ∧
        r.flags = if gapQuirk (textOf s.req) then 32 else 0

/-- R267: GAPQ is 0 exactly on the five shapes of the set of empty fields. -/
def Obligations.GapQuirkIsZeroOnTheFiveShapes : Prop :=
  ∀ s : Text,
    let fs := split 0x3A s
    let k := fs.length
    let e : Set Nat := { i | i < k ∧ fs.getD i [] = [] }
    gapQuirk s = false ↔
      e = ∅ ∨ (∃ i, 0 < i ∧ i + 1 < k ∧ e = {i}) ∨ (3 ≤ k ∧ e = {0, 1}) ∨ (3 ≤ k ∧ e = {k - 2, k - 1}) ∨
      (k = 3 ∧ e = {0, 1, 2})

/-- R194: V6.EXPAND of the text that V6.FMT writes gives the value and the text back, without GAPQ. -/
def Obligations.ExpansionOfFormattedAddressIsIdentity : Prop :=
  ∀ (s u : State), ∃ r, exec .v6Fmt s = .next (doneWith s r) ∧
    (u.req.tlen = r.rtlen → u.req.tbuf = r.rtext →
      ∃ r', exec .v6Expand u = .next (doneWith u r') ∧ r'.r0 = s.req.a ∧ r'.rtlen = r.rtlen ∧ r'.rtext = r.rtext ∧
        r'.status = 0 ∧ r'.flags = 0)

/-- R188: V6.PFX: empty text is ParseError(0xFF), a rest after at most one slash that is no decimal field ParseError(0x00),
a value above 128 RangeError(0x00); else RPFX is the value and the text its canonical decimal form. -/
def Obligations.V6PfxReadsPrefixText : Prop :=
  ∀ s : State, s.req.tlen.toNat ≤ 128 →
    (textOf s.req = [] → exec .v6Pfx s = .next (doneWith s (failed 1 0xFF))) ∧
    ∀ d : Text, textOf s.req ≠ [] →
      (textOf s.req = 0x2F :: d ∨ (textOf s.req).head? ≠ some 0x2F ∧ textOf s.req = d) →
      (¬ DecimalField d → exec .v6Pfx s = .next (doneWith s (failed 1 0x00))) ∧
      (DecimalField d → 128 < decval d → exec .v6Pfx s = .next (doneWith s (failed 2 0x00))) ∧
      (DecimalField d → decval d ≤ 128 → ∃ r, exec .v6Pfx s = .next (doneWith s r) ∧
        r = { Response.zero with rpfx := r.rpfx, rtlen := r.rtlen, rtext := r.rtext } ∧
        r.rpfx.toNat = decval d ∧ TextIs r (dec (decval d)))

/-- R190, R192: V6.FMT writes the eight groups, V6.BIN the 128 bits, most significant first. -/
def Obligations.V6FmtAndBinResults : Prop :=
  ∀ s : State,
    (∃ r, exec .v6Fmt s = .next (doneWith s r) ∧ OnlyR0Text r ∧ r.r0 = s.req.a ∧ TextIs r (colonhex s.req.a)) ∧
    ∃ r, exec .v6Bin s = .next (doneWith s r) ∧ OnlyR0Text r ∧ r.r0 = s.req.a ∧ r.rtlen = 128 ∧
      ∀ j : Fin 128, r.rtext[j] = if s.req.a.getLsbD (127 - j.val) then 0x31 else 0x30

/-! ### IPv6 pipeline -/

/-- R211: every operation that reads P raises RangeError(0xFF) where P is above 128. -/
def Obligations.LongPrefixIsRangeError : Prop :=
  ∀ (s : State) (full : Bool), 128 < s.req.p.toNat →
    ∀ i ∈ [Instr.v6Mask, .v6Net full, .v6Start, .v6End, .v6Total, .v6Subnet full],
      exec i s = .next (doneWith s (failed 2 0xFF))

/-- R212: V6.MASK: the first P bits of R0 are ones, the others zeros; P above 128 is RangeError(0xFF). -/
def Obligations.V6MaskResult : Prop :=
  ∀ s : State, (128 < s.req.p.toNat → exec .v6Mask s = .next (doneWith s (failed 2 0xFF))) ∧
    (s.req.p.toNat ≤ 128 → ∃ r, exec .v6Mask s = .next (doneWith s r) ∧
    r = { Response.zero with r0 := r.r0, rpfx := r.rpfx, rtlen := r.rtlen, rtext := r.rtext } ∧
    (∀ i, i < 128 → (r.r0.getLsbD i = true ↔ 128 - s.req.p.toNat ≤ i)) ∧ r.rpfx = s.req.p ∧ TextIs r (colonhex r.r0))

/-- R217: V6.NET in both modes: groups 0..2 copied and groups 3..7 masked, or all masked; V6LEG is FLAGS bit 4 and tells
whether the two differ (R215, R216, R266); P above 128 is RangeError(0xFF). -/
def Obligations.V6NetResult : Prop :=
  ∀ (s : State) (full : Bool),
    (128 < s.req.p.toNat → exec (.v6Net full) s = .next (doneWith s (failed 2 0xFF))) ∧
    (s.req.p.toNat ≤ 128 →
    let x := s.req.a
    let p := s.req.p.toNat
    ∃ r, exec (.v6Net full) s = .next (doneWith s r) ∧ OnlyR0TextFlags r ∧
      (∀ i, i < 128 → (r.r0.getLsbD i = true ↔ x.getLsbD i = true ∧ (128 - p ≤ i ∨ full = false ∧ 80 ≤ i))) ∧
      TextIs r (colonhex r.r0) ∧ (r.flags = 16 ∨ r.flags = 0) ∧
      (r.flags = 16 ↔ ∃ i, 80 ≤ i ∧ i < 128 - p ∧ x.getLsbD i = true))

/-- R221, R223: V6.START keeps the first P bits of the address and zero-fills, V6.END one-fills, whatever the quirk of
the network they are computed from (R219, R220); P above 128 is RangeError(0xFF). -/
def Obligations.V6StartAndEndResults : Prop :=
  ∀ s : State,
    (128 < s.req.p.toNat → exec .v6Start s = .next (doneWith s (failed 2 0xFF)) ∧
      exec .v6End s = .next (doneWith s (failed 2 0xFF))) ∧
    (s.req.p.toNat ≤ 128 →
    let x := s.req.a
    let p := s.req.p.toNat
    (∃ r, exec .v6Start s = .next (doneWith s r) ∧ OnlyR0Text r ∧ TextIs r (colonhex r.r0) ∧
      ∀ i, i < 128 → (r.r0.getLsbD i = true ↔ x.getLsbD i = true ∧ 128 - p ≤ i)) ∧
    ∃ r, exec .v6End s = .next (doneWith s r) ∧ OnlyR0Text r ∧ TextIs r (colonhex r.r0) ∧
      ∀ i, i < 128 → (r.r0.getLsbD i = true ↔ x.getLsbD i = true ∨ i < 128 - p))

/-- R226: V6.TOTAL: the count is exactly 2^(128-P), its text grouped; P above 128 is RangeError(0xFF). -/
def Obligations.V6TotalCountsExactly : Prop :=
  ∀ s : State, (128 < s.req.p.toNat → exec .v6Total s = .next (doneWith s (failed 2 0xFF))) ∧
    (s.req.p.toNat ≤ 128 → ∃ r, exec .v6Total s = .next (doneWith s r) ∧
    r = { Response.zero with rcount := r.rcount, rpfx := r.rpfx, rtlen := r.rtlen, rtext := r.rtext } ∧
    r.rcount.toNat = 2 ^ (128 - s.req.p.toNat) ∧ r.rcount.toInt = 2 ^ (128 - s.req.p.toNat) ∧ r.rpfx = s.req.p ∧
    TextIs r (grouped (2 ^ (128 - s.req.p.toNat))))

/-- R230: V6.SUBNET: the address, the network in both modes, the range, the count, the prefix length and V6LEG, and no
text; field by field they are what the single stages give on the same operands (R217, R221, R223, R226). P above 128 is
RangeError(0xFF). -/
def Obligations.V6SubnetComposesItsStages : Prop :=
  ∀ (s : State) (full : Bool),
    (128 < s.req.p.toNat → exec (.v6Subnet full) s = .next (doneWith s (failed 2 0xFF))) ∧
    (s.req.p.toNat ≤ 128 →
      let x := s.req.a
      let p := s.req.p.toNat
      ∃ r n b e c,
        exec (.v6Net full) s = .next (doneWith s n) ∧ exec .v6Start s = .next (doneWith s b) ∧
        exec .v6End s = .next (doneWith s e) ∧ exec .v6Total s = .next (doneWith s c) ∧
        exec (.v6Subnet full) s = .next (doneWith s r) ∧
        r = { Response.zero with
          r0 := x, r1 := n.r0, r2 := b.r0, r3 := e.r0, rcount := c.rcount, rpfx := c.rpfx, flags := n.flags } ∧
        (∀ i, i < 128 → (r.r1.getLsbD i = true ↔ x.getLsbD i = true ∧ (128 - p ≤ i ∨ full = false ∧ 80 ≤ i)) ∧
          (r.r2.getLsbD i = true ↔ x.getLsbD i = true ∧ 128 - p ≤ i) ∧
          (r.r3.getLsbD i = true ↔ x.getLsbD i = true ∨ i < 128 - p)) ∧
        r.rcount.toNat = 2 ^ (128 - p) ∧ r.rpfx = s.req.p ∧
        (r.flags = 16 ∨ r.flags = 0) ∧ (r.flags = 16 ↔ ∃ i, 80 ≤ i ∧ i < 128 - p ∧ x.getLsbD i = true))

/-- R216: the full network is x AND M; the legacy network is the full one exactly where the address's bits 127:80 have no
one outside the mask. For a prefix of 48 or more that always holds, for a shorter one exactly where the address has no one
at positions 127-p down to 80. -/
def Obligations.LegacyNetworkIsFullExactlyWhenHighGroupsMasked : Prop :=
  ∀ x m : Addr6, net6Full x m = x &&& m ∧
    (net6Legacy x m = net6Full x m ↔ x.extractLsb' 80 48 &&& ~~~(m.extractLsb' 80 48) = 0) ∧
    (∀ p, 48 ≤ p → p ≤ 128 → net6Legacy x (mask6 p) = net6Full x (mask6 p)) ∧
    ∀ p, p < 48 → (net6Legacy x (mask6 p) = net6Full x (mask6 p) ↔
      ∀ i, 80 ≤ i → i ≤ 127 - p → x.getLsbD i = false)

/-- R220: the range does not depend on the quirk. -/
def Obligations.RangeDoesNotDependOnTheQuirk : Prop :=
  ∀ (x : Addr6) (p : Nat), p ≤ 128 →
    start6 (net6Legacy x (mask6 p)) p = x &&& mask6 p ∧ start6 (net6Full x (mask6 p)) p = x &&& mask6 p ∧
    end6 (net6Legacy x (mask6 p)) p = x ||| ~~~mask6 p ∧ end6 (net6Full x (mask6 p)) p = x ||| ~~~mask6 p

/-- R233: V6.TOTAL counts exactly 2^(128-P) addresses, and the range of V6.SUBNET holds exactly that many. -/
def Obligations.RangeSizeIsTheAddressCount : Prop :=
  ∀ (s : State) (full : Bool), s.req.p.toNat ≤ 128 → ∃ c r,
    exec .v6Total s = .next (doneWith s c) ∧ exec (.v6Subnet full) s = .next (doneWith s r) ∧
    c.rcount.toNat = 2 ^ (128 - s.req.p.toNat) ∧ r.rcount = c.rcount ∧
    r.r3.toNat + 1 = r.r2.toNat + 2 ^ (128 - s.req.p.toNat)

/-! ### Text encodings -/

/-- R14: split gives the pieces between the separators: none holds the separator, joined by it they are the text again,
and there is one more than there are separators. -/
def Obligations.SplitJoinsBack : Prop :=
  ∀ (c : Byte) (s : Text), (split c s).length = s.count c + 1 ∧ (∀ f ∈ split c s, c ∉ f) ∧
    List.flatten ((split c s).intersperse [c]) = s

/-- R81, R82: which bytes decimal and hexadecimal fields take, and their values as the sums the rules give; the digits
of either case count the same. -/
def Obligations.FieldValuesAreDigitSums : Prop :=
  (∀ d : Text, isDecimal d = true ↔ d ≠ [] ∧ ∀ b ∈ d, 0x30 ≤ b.toNat ∧ b.toNat ≤ 0x39) ∧
  (∀ b : Byte, isHex b = true ↔ (0x30 ≤ b.toNat ∧ b.toNat ≤ 0x39) ∨ (0x61 ≤ b.toNat ∧ b.toNat ≤ 0x66) ∨
    (0x41 ≤ b.toNat ∧ b.toNat ≤ 0x46)) ∧
  (∀ d : Text, DecimalField d → decval d =
    ((List.range d.length).map fun j => ((d.getD j 0).toNat - 0x30) * 10 ^ (d.length - 1 - j)).sum) ∧
  (∀ h : Text, hexval h =
    ((List.range h.length).map fun j => hexDigitVal (h.getD j 0) * 16 ^ (h.length - 1 - j)).sum) ∧
  ∀ v : Fin 16, hexDigitVal (if v.val < 10 then BitVec.ofNat 8 (0x30 + v.val) else BitVec.ofNat 8 (0x57 + v.val)) = v ∧
    (10 ≤ v.val → hexDigitVal (BitVec.ofNat 8 (0x37 + v.val)) = v)

/-- R83: dec writes a decimal field with the number as its value and no leading zero; a negative integer gets a minus
sign. -/
def Obligations.DecWritesCanonicalDecimal : Prop :=
  ∀ n : Nat, DecimalField (dec n) ∧ decval (dec n) = n ∧ (n ≠ 0 → (dec n).head? ≠ some 0x30) ∧ (dec 0) = [0x30] ∧
    decInt n = dec n ∧ (n ≠ 0 → decInt (-(n : Int)) = 0x2D :: dec n)

/-- R84, R194: hex4 writes four lowercase digits whose value is the segment. -/
def Obligations.HexFourRoundTrip : Prop :=
  ∀ v : Seg, (hex4 v).length = 4 ∧ hexval (hex4 v) = v.toNat ∧
    ∀ b ∈ hex4 v, (0x30 ≤ b.toNat ∧ b.toNat ≤ 0x39) ∨ (0x61 ≤ b.toNat ∧ b.toNat ≤ 0x66)

/-- R86: grouped is dec with commas put in, one before every third digit from the right that is not the first. -/
def Obligations.GroupedPutsCommasEveryThreeDigits : Prop :=
  ∀ n : Nat, (grouped n).filter (fun b => b ≠ 0x2C) = dec n ∧
    (∀ j, j < (grouped n).length → ((grouped n).getD j 0 = 0x2C ↔ ((grouped n).length - 1 - j) % 4 = 3)) ∧
    (grouped n).head? ≠ some 0x2C

/-- R88: colonhex is 39 bytes: group i in bytes 5i to 5i+3, a colon between groups. -/
def Obligations.ColonHexLayout : Prop :=
  ∀ x : Addr6, (colonhex x).length = 39 ∧
    ∀ i, i < 8 → ((colonhex x).drop (5 * i)).take 4 = hex4 (seg x i) ∧ (i < 7 → (colonhex x).getD (5 * i + 4) 0 = 0x3A)
end

