-- ==== Sys2Proof/Laws/Bits.lean ====
section
/-! SUPPORT. Bit by bit: the masks, the networks, the ranges, FLAGS. -/

namespace Sys2Proof.Machine

/-- Bit i of `ones n w` is one exactly at the n most significant places. -/
theorem ones_getLsbD (n w i : Nat) : (ones n w).getLsbD i = (decide (i < w) && decide (w - n ≤ i)) := by
  simp only [ones, BitVec.getLsbD_shiftLeft, BitVec.getLsbD_allOnes]
  by_cases h : i < w <;> by_cases h2 : w - n ≤ i <;> simp [h, h2]
  omega

/-- The legacy network copies bits 127:80 and masks bits 79:0. -/
theorem net6Legacy_getLsbD (x m : Addr6) (i : Nat) :
    (net6Legacy x m).getLsbD i = (x.getLsbD i && (decide (80 ≤ i) || m.getLsbD i)) := by
  unfold net6Legacy
  rw [BitVec.getLsbD_append]
  by_cases h : i < 80
  · have h' : ¬ 80 ≤ i := by omega
    simp [h, h']
  · have h' : 80 ≤ i := by omega
    have e : 80 + (i - 80) = i := by omega
    by_cases h3 : i < 128
    · have : i - 80 < 48 := by omega
      simp [h, h', this, e]
    · have h4 : 128 ≤ i := by omega
      have : x.getLsbD i = false := BitVec.getLsbD_of_ge x i h4
      have h5 : ¬ (i - 80 < 48) := by omega
      simp [h, this, h5]

theorem net6Full_getLsbD (x m : Addr6) (i : Nat) : (net6Full x m).getLsbD i = (x.getLsbD i && m.getLsbD i) := by
  simp [net6Full]

theorem mask6_getLsbD (p i : Nat) : (mask6 p).getLsbD i = (decide (i < 128) && decide (128 - p ≤ i)) :=
  ones_getLsbD p 128 i

theorem start6_getLsbD (n : Addr6) (p i : Nat) : (start6 n p).getLsbD i = (n.getLsbD i && decide (128 - p ≤ i)) := by
  simp only [start6, BitVec.getLsbD_and, ones_getLsbD]
  by_cases h : i < 128
  · simp [h]
  · simp [BitVec.getLsbD_of_ge n i (by omega)]

theorem end6_getLsbD (n : Addr6) (p i : Nat) (h : i < 128) :
    (end6 n p).getLsbD i = (n.getLsbD i || decide (i < 128 - p)) := by
  simp only [end6, BitVec.getLsbD_or, BitVec.getLsbD_not, ones_getLsbD, h]
  by_cases h2 : 128 - p ≤ i <;> simp [h2]
  omega

/-- FLAGS is below 64: bits 7:6 are 0. -/
theorem packFlags_lt (a b c d e f : Bool) : (packFlags a b c d e f).toNat < 64 := by
  revert a b c d e f; decide

theorem packFlags_noncontig (a b c d e f : Bool) : (packFlags a b c d e f).getLsbD 0 = a := by
  revert a b c d e f; decide

theorem packFlags_fovf (a b c d e f : Bool) : (packFlags a b c d e f).getLsbD 1 = b := by
  revert a b c d e f; decide

theorem packFlags_lunf (a b c d e f : Bool) : (packFlags a b c d e f).getLsbD 2 = c := by
  revert a b c d e f; decide

theorem packFlags_hlim (a b c d e f : Bool) : (packFlags a b c d e f).getLsbD 3 = d := by
  revert a b c d e f; decide

theorem packFlags_v6leg (a b c d e f : Bool) : (packFlags a b c d e f).getLsbD 4 = e := by
  revert a b c d e f; decide

theorem packFlags_gapq (a b c d e f : Bool) : (packFlags a b c d e f).getLsbD 5 = f := by
  revert a b c d e f; decide

end Sys2Proof.Machine
end

