-- ==== Sys2Proof/Laws/Text.lean ====
section
/-! SUPPORT. The text encodings: lengths, decimal and hexadecimal digits, splitting. -/

namespace Sys2Proof.Machine

/-! ### Decimal digits -/

theorem decDigits_succ (fuel n : Nat) :
    decDigits (fuel + 1) n = if n < 10 then [decDigit n] else decDigits fuel (n / 10) ++ [decDigit (n % 10)] := rfl

theorem decDigits_length_le (k : Nat) : ∀ fuel n, n < 10 ^ (k + 1) → (decDigits fuel n).length ≤ k + 1 := by
  induction k with
  | zero =>
    intro fuel n h
    cases fuel with
    | zero => simp [decDigits]
    | succ f => rw [decDigits_succ, if_pos (by omega)]; simp
  | succ k ih =>
    intro fuel n h
    cases fuel with
    | zero => simp [decDigits]
    | succ f =>
      rw [decDigits_succ]
      split
      · simp
      · have := ih f (n / 10) (by rw [Nat.div_lt_iff_lt_mul (by decide)]; rw [pow_succ] at h; exact h)
        simp; omega

/-- dec of a number below 10 to the power k+1 has at most k+1 characters. -/
theorem dec_length_le {n k : Nat} (h : n < 10 ^ (k + 1)) : (dec n).length ≤ k + 1 := decDigits_length_le k _ n h

/-- With enough fuel the digits of n are those of n / 10 and then n % 10. -/
theorem decDigits_fuel : ∀ fuel fuel' n, n < 10 ^ fuel → n < 10 ^ fuel' → 0 < fuel → 0 < fuel' →
    decDigits fuel n = decDigits fuel' n := by
  intro fuel
  induction fuel with
  | zero => intro _ _ _ _ h; omega
  | succ f ih =>
    intro fuel' n h h' _ hp
    obtain ⟨f', rfl⟩ := Nat.exists_eq_succ_of_ne_zero (Nat.pos_iff_ne_zero.mp hp)
    rw [decDigits_succ, Nat.succ_eq_add_one, decDigits_succ]
    split
    · rfl
    · rename_i hn
      have hdiv : n / 10 < 10 ^ f := by rw [Nat.div_lt_iff_lt_mul (by decide)]; rw [pow_succ] at h; exact h
      have hdiv' : n / 10 < 10 ^ f' := by rw [Nat.div_lt_iff_lt_mul (by decide)]; rw [Nat.succ_eq_add_one, pow_succ] at h'; exact h'
      have hpos : 1 ≤ n / 10 := by omega
      have hf : 0 < f := by rcases Nat.eq_zero_or_pos f with h0 | h0; · subst h0; omega
                            · exact h0
      have hf' : 0 < f' := by rcases Nat.eq_zero_or_pos f' with h0 | h0; · subst h0; omega
                              · exact h0
      rw [ih f' (n / 10) hdiv hdiv' hf hf']

theorem lt_ten_pow_log2 (n : Nat) : n < 10 ^ (n.log2 + 1) :=
  Nat.lt_of_lt_of_le Nat.lt_log2_self (Nat.pow_le_pow_left (by decide) _)

theorem dec_of_lt {n : Nat} (h : n < 10) : dec n = [decDigit n] := by
  unfold dec; rw [decDigits_succ, if_pos h]

/-- dec digit by digit. -/
theorem dec_of_ge {n : Nat} (h : 10 ≤ n) : dec n = dec (n / 10) ++ [decDigit (n % 10)] := by
  unfold dec
  rw [decDigits_succ, if_neg (by omega)]
  have h2 : n / 10 < 10 ^ n.log2 := by
    rw [Nat.div_lt_iff_lt_mul (by decide)]
    have := lt_ten_pow_log2 n
    rwa [pow_succ] at this
  have h3 : 0 < n.log2 := by
    rcases Nat.eq_zero_or_pos n.log2 with h0 | h0
    · rw [h0] at h2; omega
    · exact h0
  rw [decDigits_fuel n.log2 ((n / 10).log2 + 1) (n / 10) h2 (lt_ten_pow_log2 _) h3 (by omega)]

/-! ### Lengths -/

@[simp] theorem bin_length {w : Nat} (v : BitVec w) : (bin v).length = w := by simp [bin]

theorem bin_getElem {w : Nat} (v : BitVec w) (j : Nat) (h : j < (bin v).length) :
    (bin v)[j] = if v.getLsbD (w - 1 - j) then chOne else chZero := by
  simp [bin]

@[simp] theorem hex4_length (v : Seg) : (hex4 v).length = 4 := rfl

@[simp] theorem colonhex_length (x : Addr6) : (colonhex x).length = 39 := by simp [colonhex]

theorem dec_byte_length (o : BitVec 8) : (dec o.toNat).length ≤ 3 := dec_length_le (k := 2) (by have := o.isLt; omega)

theorem dotted_length_le (x : Addr4) : (dotted x).length ≤ 15 := by
  have h0 := dec_byte_length (octet x 0)
  have h1 := dec_byte_length (octet x 1)
  have h2 := dec_byte_length (octet x 2)
  have h3 := dec_byte_length (octet x 3)
  simp only [dotted, List.length_append, List.length_singleton]
  omega

theorem decInt_length_le {i : Int} {k : Nat} (h : i.natAbs < 10 ^ (k + 1)) : (decInt i).length ≤ k + 2 := by
  cases i with
  | ofNat n => have := dec_length_le (n := n) (k := k) (by simpa using h); simp only [decInt]; omega
  | negSucc n =>
    have := dec_length_le (n := n + 1) (k := k) (by simpa using h)
    simp only [decInt, List.length_cons]; omega

theorem usableText_length_le (c : EdgeText) (x : Addr4) (e : Edge) : (usableText c x e).length ≤ 16 := by
  have h0 := dec_byte_length (octet x 0)
  have h1 := dec_byte_length (octet x 1)
  have h2 := dec_byte_length (octet x 2)
  have hd := dotted_length_le x
  have h3 := (octet x 3).isLt
  have ho := decInt_length_le (i := ((octet x 3).toNat : Int) + 256) (k := 2) (by omega)
  have hu := decInt_length_le (i := ((octet x 3).toNat : Int) - 256) (k := 2) (by omega)
  cases c <;> cases e <;> simp only [usableText, List.length_append, List.length_singleton] <;> omega

theorem insertCommas_length_le : ∀ t : Text, (insertCommas t).length ≤ 2 * t.length
  | [] => by simp [insertCommas]
  | [_] => by simp [insertCommas]
  | [_, _] => by simp [insertCommas]
  | [_, _, _] => by simp [insertCommas]
  | a :: b :: c :: d :: rest => by
    have := insertCommas_length_le (d :: rest)
    simp only [insertCommas, List.length_cons] at *
    omega

theorem grouped_total6_length_le (p : Nat) : (grouped (total6 p)).length ≤ 78 := by
  have h1 : total6 p < 10 ^ (38 + 1) := by
    unfold total6
    exact Nat.lt_of_le_of_lt (Nat.pow_le_pow_right (by decide) (by omega : 128 - p ≤ 128)) (by norm_num)
  have h2 := dec_length_le h1
  have h3 := insertCommas_length_le (dec (total6 p)).reverse
  simp only [grouped, List.length_reverse] at *
  omega

theorem popcount_le {w : Nat} (v : BitVec w) : popcount v ≤ w := by
  unfold popcount
  exact Nat.le_trans List.countP_le_length (by simp)

theorem hosts_text_length_le (k : Nat) : (decInt (hosts k)).length ≤ 11 := by
  have h1 : (2 : Int) ^ (32 - k) ≤ 2 ^ 32 := pow_le_pow_right₀ (by norm_num) (by omega)
  have h2 : (0 : Int) < 2 ^ (32 - k) := by positivity
  apply decInt_length_le (k := 9)
  unfold hosts
  omega

theorem cidr_text_length_le (m : Addr4) : (chSlash :: dec (popcount m)).length ≤ 3 := by
  have h1 := popcount_le m
  have h2 := dec_length_le (n := popcount m) (k := 1) (by omega)
  simp; omega

/-! ### Reading digit by digit -/

theorem decval_append (d : Text) (b : Byte) : decval (d ++ [b]) = 10 * decval d + (b.toNat - 0x30) := by
  simp [decval]

theorem hexval_append (d : Text) (b : Byte) : hexval (d ++ [b]) = 16 * hexval d + hexDigitVal b := by
  simp [hexval]

theorem decDigit_toNat {n : Nat} (h : n < 10) : (decDigit n).toNat = 0x30 + n := by
  simp [decDigit]; omega

theorem hexDigitVal_hexDigit (d : BitVec 4) : hexDigitVal (hexDigit d) = d.toNat := by
  revert d; decide

theorem hexDigit_range (d : BitVec 4) :
    (0x30 ≤ (hexDigit d).toNat ∧ (hexDigit d).toNat ≤ 0x39) ∨ (0x61 ≤ (hexDigit d).toNat ∧ (hexDigit d).toNat ≤ 0x66) := by
  revert d; decide

/-- The binary string of a concatenation. -/
theorem bin_append {n m : Nat} (a : BitVec n) (b : BitVec m) : bin (a ++ b) = bin a ++ bin b := by
  apply List.ext_getElem
  · simp
  · intro i h1 h2
    rw [bin_getElem, BitVec.getLsbD_append]
    simp only [bin_length] at h1
    by_cases h : i < n
    · rw [List.getElem_append_left (by simpa using h), bin_getElem]
      have e1 : ¬ (n + m - 1 - i < m) := by omega
      have e2 : n + m - 1 - i - m = n - 1 - i := by omega
      simp [e1, e2]
    · rw [List.getElem_append_right (by simpa using h), bin_getElem]
      simp only [bin_length]
      have e1 : (n + m - 1 - i < m) := by omega
      have e2 : n + m - 1 - i = m - 1 - (i - n) := by omega
      simp only [e1, if_true]; simp only [e2]

/-! ### Splitting -/

theorem split_ne_nil (c : Byte) (s : Text) : split c s ≠ [] := by
  cases s with
  | nil => simp [split]
  | cons b bs => unfold split; split; · simp
                 · split <;> simp

/-- The first piece ends at the first separator. -/
theorem split_append_sep (c : Byte) (u v : Text) (h : c ∉ u) : split c (u ++ c :: v) = u :: split c v := by
  induction u with
  | nil => simp [split]
  | cons b u ih =>
    have hb : b ≠ c := by rintro rfl; simp at h
    have ih := ih (by intro h2; apply h; simp [h2])
    simp only [List.cons_append, split, if_neg hb, ih]

theorem split_no_sep (c : Byte) (u : Text) (h : c ∉ u) : split c u = [u] := by
  induction u with
  | nil => rfl
  | cons b u ih =>
    have hb : b ≠ c := by rintro rfl; simp at h
    have ih := ih (by intro h2; apply h; simp [h2])
    simp only [split, if_neg hb, ih]

end Sys2Proof.Machine
end

