-- ==== Sys2Proof/Laws/Address.lean ====
section
/-! SUPPORT. Addresses as numbers and as octets or segments, masks, the usable range, the count results. -/

namespace Sys2Proof.Machine

/-! ### Octets and segments -/

theorem octet_toNat (x : Addr4) (i : Nat) : (octet x i).toNat = x.toNat / 2 ^ (24 - 8 * i) % 256 := by
  simp [octet, BitVec.extractLsb'_toNat, Nat.shiftRight_eq_div_pow]

theorem v4_toNat (a b c d : BitVec 8) :
    (v4 a b c d).toNat = a.toNat * 2 ^ 24 + b.toNat * 2 ^ 16 + c.toNat * 2 ^ 8 + d.toNat := by
  have ha := a.isLt; have hb := b.isLt; have hc := c.isLt; have hd := d.isLt
  unfold v4
  rw [BitVec.toNat_append, BitVec.toNat_append, BitVec.toNat_append, ← Nat.shiftLeft_add_eq_or_of_lt hd,
    ← Nat.shiftLeft_add_eq_or_of_lt hc, ← Nat.shiftLeft_add_eq_or_of_lt hb]
  simp only [Nat.shiftLeft_eq]; omega

/-- The octets of v4 are its arguments. -/
theorem octet_v4 (a b c d : BitVec 8) :
    octet (v4 a b c d) 0 = a ∧ octet (v4 a b c d) 1 = b ∧ octet (v4 a b c d) 2 = c ∧ octet (v4 a b c d) 3 = d := by
  have ha := a.isLt; have hb := b.isLt; have hc := c.isLt; have hd := d.isLt
  refine ⟨?_, ?_, ?_, ?_⟩ <;> apply BitVec.eq_of_toNat_eq <;> rw [octet_toNat, v4_toNat] <;> omega

/-- An address is its octets. -/
theorem v4_octets (x : Addr4) : v4 (octet x 0) (octet x 1) (octet x 2) (octet x 3) = x := by
  apply BitVec.eq_of_toNat_eq
  have := x.isLt
  rw [v4_toNat, octet_toNat, octet_toNat, octet_toNat, octet_toNat]; omega

theorem extract_append_seg {n : Nat} (a : BitVec n) (b : Seg) (k : Nat) :
    (a ++ b : BitVec (n + 16)).extractLsb' (k + 16) 16 = a.extractLsb' k 16 := by
  apply BitVec.eq_of_getLsbD_eq; intro j hj
  simp only [BitVec.getLsbD_extractLsb', BitVec.getLsbD_append, hj, decide_true, Bool.true_and]
  have : ¬ (k + 16 + j < 16) := by omega
  have e : k + 16 + j - 16 = k + j := by omega
  simp only [this, if_false, e]

theorem extract_append_last {n : Nat} (a : BitVec n) (b : Seg) : (a ++ b : BitVec (n + 16)).extractLsb' 0 16 = b := by
  apply BitVec.eq_of_getLsbD_eq; intro j hj
  simp only [BitVec.getLsbD_extractLsb', BitVec.getLsbD_append, hj, decide_true, Bool.true_and, Nat.zero_add]
  simp

/-- The segments of v6 are its arguments. -/
theorem seg_v6 (s0 s1 s2 s3 s4 s5 s6 s7 : Seg) (i : Nat) (hi : i < 8) :
    seg (v6 s0 s1 s2 s3 s4 s5 s6 s7) i = [s0, s1, s2, s3, s4, s5, s6, s7].getD i 0 := by
  unfold seg v6
  have : i = 0 ∨ i = 1 ∨ i = 2 ∨ i = 3 ∨ i = 4 ∨ i = 5 ∨ i = 6 ∨ i = 7 := by omega
  rcases this with rfl | rfl | rfl | rfl | rfl | rfl | rfl | rfl <;> simp only [Nat.reduceMul, Nat.reduceSub]
  · erw [extract_append_seg _ _ 96, extract_append_seg _ _ 80, extract_append_seg _ _ 64, extract_append_seg _ _ 48,
      extract_append_seg _ _ 32, extract_append_seg _ _ 16, extract_append_seg _ _ 0]; simp
  · erw [extract_append_seg _ _ 80, extract_append_seg _ _ 64, extract_append_seg _ _ 48, extract_append_seg _ _ 32,
      extract_append_seg _ _ 16, extract_append_seg _ _ 0, extract_append_last]; rfl
  · erw [extract_append_seg _ _ 64, extract_append_seg _ _ 48, extract_append_seg _ _ 32, extract_append_seg _ _ 16,
      extract_append_seg _ _ 0, extract_append_last]; rfl
  · erw [extract_append_seg _ _ 48, extract_append_seg _ _ 32, extract_append_seg _ _ 16, extract_append_seg _ _ 0,
      extract_append_last]; rfl
  · erw [extract_append_seg _ _ 32, extract_append_seg _ _ 16, extract_append_seg _ _ 0, extract_append_last]; rfl
  · erw [extract_append_seg _ _ 16, extract_append_seg _ _ 0, extract_append_last]; rfl
  · erw [extract_append_seg _ _ 0, extract_append_last]; rfl
  · erw [extract_append_last]; rfl

/-- Two addresses with the same segments are equal. -/
theorem eq_of_segs (x y : Addr6) (h : ∀ i, i < 8 → seg x i = seg y i) : x = y := by
  apply BitVec.eq_of_getLsbD_eq
  intro k hk
  have := h (7 - k / 16) (by omega)
  have := congrArg (fun v => BitVec.getLsbD v (k % 16)) this
  have e : 112 - 16 * (7 - k / 16) + k % 16 = k := by omega
  have h16 : k % 16 < 16 := by omega
  simpa [seg, e, h16] using this

theorem result4_toNat (x : Addr4) : (result4 x).toNat = x.toNat := by
  have := x.isLt
  simp [result4]; omega

theorem result4_low (x : Addr4) : (result4 x).extractLsb' 0 32 = x := by
  apply BitVec.eq_of_toNat_eq
  rw [BitVec.extractLsb'_toNat, result4_toNat]; simpa using x.isLt

/-! ### Masks -/

/-- The mask of n ones has n ones. -/
theorem popcount_ones (n w : Nat) (h : n ≤ w) : popcount (ones n w) = n := by
  unfold popcount
  have e : (List.range w).countP (fun i => (ones n w).getLsbD i) = (List.range w).countP (fun i => decide (w - n ≤ i)) := by
    apply List.countP_congr
    intro i hi
    simp only [List.mem_range] at hi
    rw [ones_getLsbD]; simp [hi]
  rw [e]
  have key : ∀ w c, (List.range w).countP (fun i => decide (c ≤ i)) = w - c := by
    intro w c
    induction w with
    | zero => simp
    | succ w ih =>
      rw [List.range_succ, List.countP_append, ih]
      by_cases h : c ≤ w <;> simp [h] <;> omega
  rw [key]; omega

theorem ones_toNat (n w : Nat) (h : n ≤ w) : (ones n w).toNat = 2 ^ w - 2 ^ (w - n) := by
  unfold ones
  rw [BitVec.toNat_shiftLeft, BitVec.toNat_allOnes, Nat.shiftLeft_eq]
  have e : 2 ^ w = 2 ^ (w - n) * 2 ^ n := by rw [← pow_add]; congr 1; omega
  rw [e]
  generalize hp : 2 ^ (w - n) = p
  generalize hq : 2 ^ n = q
  have hp' : 0 < p := by rw [← hp]; positivity
  have hq' : 0 < q := by rw [← hq]; positivity
  have e2 : (p * q - 1) * p = (p * q - p) + (p - 1) * (p * q) := by
    zify [show 1 ≤ p * q from Nat.mul_pos hp' hq', show p ≤ p * q from Nat.le_mul_of_pos_right _ hq', show 1 ≤ p from hp']
    ring
  rw [e2, Nat.add_mul_mod_self_right]
  apply Nat.mod_eq_of_lt
  have : p ≤ p * q := Nat.le_mul_of_pos_right _ hq'
  omega

theorem noncontigFlag_iff (m : Addr4) : noncontigFlag m = true ↔ m ≠ ones (popcount m) 32 := by
  simp [noncontigFlag, contiguous32]

/-! ### The usable range as numbers -/

theorem high_append_low_toNat (h : BitVec 24) (l : BitVec 8) : (h ++ l : Addr4).toNat = h.toNat * 256 + l.toNat := by
  rw [BitVec.toNat_append, ← Nat.shiftLeft_add_eq_or_of_lt l.isLt, Nat.shiftLeft_eq]

theorem high24_toNat (n : Addr4) : (n.extractLsb' 8 24).toNat = n.toNat / 256 := by
  have := n.isLt
  rw [BitVec.extractLsb'_toNat, Nat.shiftRight_eq_div_pow]; omega

theorem low8_toNat (n : Addr4) : (n.extractLsb' 0 8).toNat = n.toNat % 256 := by
  rw [BitVec.extractLsb'_toNat, Nat.shiftRight_eq_div_pow]; simp

theorem firstUsable_toNat (n : Addr4) (w : Bool) : (firstUsable n w).1.toNat =
    if w then (n.toNat + 1) % 2 ^ 32 else n.toNat - n.toNat % 256 + (n.toNat % 256 + 1) % 256 := by
  cases w
  · simp only [firstUsable, Bool.false_eq_true, if_false]
    rw [high_append_low_toNat, high24_toNat, low8_toNat, BitVec.toNat_ofNat]; omega
  · simp [firstUsable]

theorem firstUsable_overflow (n : Addr4) (w : Bool) :
    (firstUsable n w).2 = true ↔ if w then n.toNat = 2 ^ 32 - 1 else n.toNat % 256 = 255 := by
  cases w
  · simp only [firstUsable, Bool.false_eq_true, if_false, low8_toNat]; simp
  · simp [firstUsable]

theorem lastUsable_toNat (b : Addr4) (w : Bool) : (lastUsable b w).1.toNat =
    if w then (b.toNat + (2 ^ 32 - 1)) % 2 ^ 32 else b.toNat - b.toNat % 256 + (b.toNat % 256 + 255) % 256 := by
  have := b.isLt
  cases w
  · simp only [lastUsable, Bool.false_eq_true, if_false]
    rw [high_append_low_toNat, high24_toNat, low8_toNat, BitVec.toNat_ofInt]; omega
  · simp [lastUsable, BitVec.toNat_ofInt]; omega

theorem lastUsable_underflow (b : Addr4) (w : Bool) :
    (lastUsable b w).2 = true ↔ if w then b.toNat = 0 else b.toNat % 256 = 0 := by
  cases w
  · simp only [lastUsable, Bool.false_eq_true, if_false, low8_toNat]; simp
  · simp [lastUsable]

/-! ### Counts -/

/-- The signed count field holds hosts(k) exactly. -/
theorem hosts_toInt (k : Nat) : (BitVec.ofInt 130 (hosts k)).toInt = hosts k := by
  have h1 : (2 : Int) ^ (32 - k) ≤ 2 ^ 32 := pow_le_pow_right₀ (by norm_num) (by omega)
  have h2 : (0 : Int) < 2 ^ (32 - k) := by positivity
  rw [BitVec.toInt_ofInt]
  unfold hosts
  rw [Int.bmod_eq_of_le] <;> omega

/-- The count field holds the number of addresses exactly. -/
theorem total6_toNat (p : Nat) : (BitVec.ofNat 130 (total6 p)).toNat = total6 p := by
  have : 2 ^ (128 - p) ≤ 2 ^ 128 := Nat.pow_le_pow_right (by decide) (by omega)
  rw [BitVec.toNat_ofNat, Nat.mod_eq_of_lt]
  unfold total6; omega

end Sys2Proof.Machine
end

