-- ==== Sys2Proof/Laws/Decode.lean ====
section
/-! SUPPORT. The opcode map read both ways, and the fields of an encoded word. -/

namespace Sys2Proof

/-- The map has a row exactly for the listed opcodes. -/
theorem rowOf_none_iff (opc : BitVec 8) (w f : Bool) : rowOf opc w f = none ↔ legalOpcodes.contains opc = false := by
  revert opc w f; decide +revert

/-- A row has its own opcode. -/
theorem opcodeOf_rowOf {opc : BitVec 8} {w f : Bool} {i : Instr} (h : rowOf opc w f = some i) : opcodeOf i = opc := by
  have key : ∀ opc w f, (rowOf opc w f).all (fun i => opcodeOf i == opc) = true := by decide
  have := key opc w f
  rw [h] at this
  simpa using this

/-- A row's mode-bit columns are the lists of R71, and it carries the bits it takes. -/
theorem rowOf_modes {opc : BitVec 8} {w f : Bool} {i : Instr} (h : rowOf opc w f = some i) :
    takesWide i = wideOpcodes.contains opc ∧ takesFull i = fullOpcodes.contains opc ∧
      wideOf i = (w && takesWide i) ∧ fullOf i = (f && takesFull i) := by
  have key : ∀ opc w f, (rowOf opc w f).all (fun i =>
      takesWide i == wideOpcodes.contains opc && takesFull i == fullOpcodes.contains opc &&
        wideOf i == (w && takesWide i) && fullOf i == (f && takesFull i)) = true := by decide
  have := key opc w f
  rw [h] at this
  simpa [Bool.and_eq_true, and_assoc] using this

/-- A command word is its four fields. -/
theorem cmdWord_eq_fields (w : CmdWord) :
    w = rsvField w ++ BitVec.ofBool (fullBit w) ++ BitVec.ofBool (wideBit w) ++ opcField w := by
  apply BitVec.eq_of_getLsbD_eq
  intro k hk
  simp only [rsvField, fullBit, wideBit, opcField, BitVec.getLsbD_append, BitVec.getLsbD_ofBool, BitVec.getLsbD_extractLsb']
  by_cases c1 : k < 8
  · simp [c1]
  · by_cases c2 : k = 8
    · subst c2; simp
    · by_cases c3 : k = 9
      · subst c3; simp
      · have h1 : ¬ (k - 8 < 1) := by omega
        have h2 : ¬ (k - 8 - 1 < 1) := by omega
        have h3 : k - 8 - 1 - 1 < 22 := by omega
        have e : 10 + (k - 8 - 1 - 1) = k := by omega
        simp only [c1, h1, h2, h3, e, if_false, decide_false, decide_true, Bool.true_and, Bool.false_and]

/-- The decoder in terms of the checks of WellFormed.lean, in the order of R90. -/
theorem decodeWord_eq (w : CmdWord) : decodeWord w =
    match rowOf (opcField w) (wideBit w) (fullBit w) with
    | none => .error .unknownOpcode
    | some i =>
      if reservedClear w = false then .error .reservedBit
      else if wideAllowed w = false then .error .modeBit
      else if fullAllowed w = false then .error .modeBit
      else .ok i := by
  have e : decodeWord w = (match rowOf (opcField w) (wideBit w) (fullBit w) with
      | none => .error .unknownOpcode
      | some i => if rsvField w ≠ 0 then .error .reservedBit
        else if wideBit w && !takesWide i then .error .modeBit
        else if fullBit w && !takesFull i then .error .modeBit else .ok i) := rfl
  rw [e]
  cases h : rowOf (opcField w) (wideBit w) (fullBit w) with
  | none => rfl
  | some i =>
    obtain ⟨h1, h2, -, -⟩ := rowOf_modes h
    simp only [reservedClear, wideAllowed, fullAllowed, ← h1, ← h2]
    have : (rsvField w ≠ 0) ↔ ((rsvField w == 0) = false) := by simp
    simp only [this]
    generalize wideBit w = a
    generalize fullBit w = b
    generalize takesWide i = c
    generalize takesFull i = d
    generalize (rsvField w == 0) = z
    cases z <;> cases a <;> cases b <;> cases c <;> cases d <;> rfl

theorem rowOf_none_iff_unknown (w : CmdWord) :
    rowOf (opcField w) (wideBit w) (fullBit w) = none ↔ opcodeKnown w = false := rowOf_none_iff _ _ _

/-- The four fields of an encoded word. -/
theorem encode_fields (i : Instr) :
    (encode i).extractLsb' 0 8 = opcodeOf i ∧ (encode i).getLsbD 8 = wideOf i ∧ (encode i).getLsbD 9 = fullOf i ∧
      (encode i).extractLsb' 10 22 = 0 := by
  rcases i with _ | _ | _ | _ | _ | _ | _ | _ | (_ | _) | (_ | _) | (_ | _) | _ | _ | _ | _ | _ | _ | _ | (_ | _) | _ | _ | _ |
    (_ | _) <;> decide

end Sys2Proof
end

