-- ==== Sys2Proof/Laws/State.lean ====
section
/-! SUPPORT. One lemma per field per update of the state and of a response, and the frames of the shared updates, so that no
later proof unfolds a record update. -/

namespace Sys2Proof.Machine

@[simp] theorem doneWith_phase (s : State) (r : Response) : (doneWith s r).phase = .done := rfl
@[simp] theorem doneWith_req (s : State) (r : Response) : (doneWith s r).req = s.req := rfl
@[simp] theorem doneWith_resp (s : State) (r : Response) : (doneWith s r).resp = some r := rfl
@[simp] theorem doneWith_turns (s : State) (r : Response) : (doneWith s r).turns = s.turns := rfl
@[simp] theorem doneWith_answers (s : State) (r : Response) : (doneWith s r).answers = s.answers := rfl

@[simp] theorem submit_phase (q : Request) (s : State) : (submit q s).phase = .busy := rfl
@[simp] theorem submit_req (q : Request) (s : State) : (submit q s).req = q := rfl
@[simp] theorem submit_resp (q : Request) (s : State) : (submit q s).resp = none := rfl
@[simp] theorem submit_turns (q : Request) (s : State) : (submit q s).turns = s.turns := rfl
@[simp] theorem submit_answers (q : Request) (s : State) : (submit q s).answers = s.answers := rfl

@[simp] theorem poll_phase (s : State) : (poll s).phase = s.phase := rfl
@[simp] theorem poll_req (s : State) : (poll s).req = s.req := rfl
@[simp] theorem poll_resp (s : State) : (poll s).resp = s.resp := rfl
@[simp] theorem poll_turns (s : State) : (poll s).turns = s.turns := rfl
@[simp] theorem poll_answers (s : State) : (poll s).answers = .phase s.phase :: s.answers := rfl

@[simp] theorem resetInput_phase (s : State) : (resetInput s).phase = .idle := rfl
@[simp] theorem resetInput_req (s : State) : (resetInput s).req = Request.zero := rfl
@[simp] theorem resetInput_resp (s : State) : (resetInput s).resp = none := rfl
@[simp] theorem resetInput_turns (s : State) : (resetInput s).turns = s.turns := rfl
@[simp] theorem resetInput_answers (s : State) : (resetInput s).answers = s.answers := rfl

@[simp] theorem withText_status (r : Response) (t : Text) : (withText r t).status = r.status := rfl
@[simp] theorem withText_errinfo (r : Response) (t : Text) : (withText r t).errinfo = r.errinfo := rfl
@[simp] theorem withText_flags (r : Response) (t : Text) : (withText r t).flags = r.flags := rfl
@[simp] theorem withText_r0 (r : Response) (t : Text) : (withText r t).r0 = r.r0 := rfl
@[simp] theorem withText_r1 (r : Response) (t : Text) : (withText r t).r1 = r.r1 := rfl
@[simp] theorem withText_r2 (r : Response) (t : Text) : (withText r t).r2 = r.r2 := rfl
@[simp] theorem withText_r3 (r : Response) (t : Text) : (withText r t).r3 = r.r3 := rfl
@[simp] theorem withText_rcount (r : Response) (t : Text) : (withText r t).rcount = r.rcount := rfl
@[simp] theorem withText_rpfx (r : Response) (t : Text) : (withText r t).rpfx = r.rpfx := rfl
@[simp] theorem withText_rtlen (r : Response) (t : Text) : (withText r t).rtlen = BitVec.ofNat 8 t.length := rfl
@[simp] theorem withText_rtext (r : Response) (t : Text) : (withText r t).rtext = padText t := rfl

end Sys2Proof.Machine
end

