-- ==== Sys2Proof/Laws/Ops.lean ====
section
/-! SUPPORT. What each shared operation can do, said once: completing a request, padding a text, reading the text and
the prefix operand, the host's READ. -/

namespace Sys2Proof.Machine

/-- Completing a request always gives a next state: s with RESP and PHASE written. -/
theorem complete_eq (s : State) (x : Except Raise Response) : complete s x = .next (doneWith s (responseOf x)) := rfl

/-- An operation that raises gets the error response. -/
theorem responseOf_error (e : Raise) : responseOf (.error e) = failed e.status e.info := rfl

theorem responseOf_ok (r : Response) : responseOf (.ok r) = r := rfl

/-- A sequence of steps that returns returned at each step. -/
theorem except_bind_ok {ε α β : Type} {x : Except ε α} {f : α → Except ε β} {b : β} (h : (x >>= f) = .ok b) :
    ∃ a, x = .ok a ∧ f a = .ok b := by
  cases x with
  | ok a => exact ⟨a, rfl, h⟩
  | error e => cases h

/-- A sequence of steps that raises raised at the first or at the rest. -/
theorem except_bind_error {ε α β : Type} {x : Except ε α} {f : α → Except ε β} {e : ε} (h : (x >>= f) = .error e) :
    x = .error e ∨ ∃ a, x = .ok a ∧ f a = .error e := by
  cases x with
  | ok a => exact .inr ⟨a, rfl, h⟩
  | error e' => cases h; exact .inl rfl

theorem padText_getElem (t : Text) (j : Fin 128) : (padText t)[j] = t.getD j.val 0 := by
  simp [padText]

/-- The padded text is the text and then zeros. -/
theorem padText_toList (t : Text) (h : t.length ≤ 128) :
    (padText t).toList = t ++ List.replicate (128 - t.length) 0 := by
  apply List.ext_getElem
  · simp; omega
  · intro i h1 h2
    simp only [List.getElem_append, Vector.getElem_toList, padText, Vector.getElem_ofFn, List.getD_eq_getElem?_getD]
    split
    · rename_i hi; simp [hi]
    · rename_i hi; simp [List.getElem?_eq_none (Nat.le_of_not_lt hi)]

/-- A text of at most 128 bytes is the response's text after `withText`. -/
theorem textIs_withText (r : Response) (t : Text) (h : t.length ≤ 128) : TextIs (withText r t) t := by
  refine ⟨?_, padText_toList t h⟩
  simp; omega

/-- The text operand: too long, empty, or the text. -/
theorem textOperand_cases (q : Request) :
    (128 < q.tlen.toNat ∧ textOperand q = .error { status := 3, info := 0x04 }) ∨
    (q.tlen.toNat = 0 ∧ textOperand q = .error { status := 1, info := 0xFF }) ∨
    (TextPresent q ∧ textOperand q = .ok (textOf q)) := by
  unfold textOperand
  by_cases h : 128 < q.tlen.toNat
  · exact .inl ⟨h, by simp [h]; rfl⟩
  · by_cases h0 : q.tlen.toNat = 0
    · exact .inr (.inl ⟨h0, by rw [if_neg h, if_pos h0]; rfl⟩)
    · exact .inr (.inr ⟨⟨by omega, by omega⟩, by rw [if_neg h, if_neg h0]; rfl⟩)

theorem textOf_length (q : Request) (h : q.tlen.toNat ≤ 128) : (textOf q).length = q.tlen.toNat := by
  simp [textOf]; omega

theorem textOperand_of_present {q : Request} (h : TextPresent q) : textOperand q = .ok (textOf q) := by
  rcases textOperand_cases q with h1 | h1 | h1
  · have := h.2; omega
  · have := h.1; omega
  · exact h1.2

theorem textOperand_of_empty {q : Request} (h : q.tlen.toNat = 0) :
    textOperand q = .error { status := 1, info := 0xFF } := by
  rcases textOperand_cases q with h1 | h1 | h1
  · omega
  · exact h1.2
  · have := h1.1.1; omega

/-- The prefix operand: out of range, or P. -/
theorem prefixOperand_of_long {q : Request} (h : 128 < q.p.toNat) :
    prefixOperand q = .error { status := 2, info := 0xFF } := by
  unfold prefixOperand; rw [if_pos h]; rfl

theorem prefixOperand_of_le {q : Request} (h : q.p.toNat ≤ 128) : prefixOperand q = .ok q.p.toNat := by
  unfold prefixOperand; rw [if_neg (by omega)]

/-- READ with a response in DONE answers it. -/
theorem readResponse_done {s : State} {r : Response} (hp : s.phase = .done) (hr : s.resp = some r) :
    readResponse s = .next { s with answers := .response r :: s.answers } := by
  unfold readResponse; rw [hp, hr]

/-- READ outside DONE is the protocol fault. -/
theorem readResponse_not_done {s : State} (hp : s.phase ≠ .done) : readResponse s = .fault .readOutsideDone := by
  unfold readResponse
  cases h : s.phase with
  | idle => rfl
  | busy => rfl
  | done => exact absurd h hp

end Sys2Proof.Machine
end

