-- ==== Sys2Proof/Laws/Exec.lean ====
section
/-! SUPPORT. What a step can do, said once: every operation completes, and a step is one of the moves of R28, R29 and
R280. -/

namespace Sys2Proof.Machine

/-- Each operation as a function of the latched request. -/
def opOf : Instr → Request → Except Raise Response
  | .v4Bin => opV4Bin
  | .v4Bint => opV4Bint
  | .v4Bin4 => opV4Bin4
  | .v4Parse => opV4Parse
  | .v4Fmt => opV4Fmt
  | .v4And => opV4And
  | .v4Inv => opV4Inv
  | .v4Bcast => opV4Bcast
  | .v4First w => opV4First w
  | .v4Last w => opV4Last w
  | .v4Subnet w => opV4Subnet w
  | .v4Hosts => opV4Hosts
  | .v4Cidr => opV4Cidr
  | .v6Expand => opV6Expand
  | .v6Pfx => opV6Pfx
  | .v6Fmt => opV6Fmt
  | .v6Bin => opV6Bin
  | .v6Mask => opV6Mask
  | .v6Net f => opV6Net f
  | .v6Start => opV6Start
  | .v6End => opV6End
  | .v6Total => opV6Total
  | .v6Subnet f => opV6Subnet f

/-- exec in one equation: proofs about an operation start from here. -/
theorem exec_eq (i : Instr) (s : State) : exec i s = .next (doneWith s (responseOf (opOf i s.req))) := by
  cases i <;> rfl

/-- EXECUTE in one equation: RESP is the response of the decoded operation or of the illegal command. -/
def executeResponse (q : Request) : Response :=
  match decodeWord q.cmd with
  | .ok i => responseOf (opOf i q)
  | .error why => failed 3 (illegalInfo why)

theorem execute_eq (s : State) : execute s = .next (doneWith s (executeResponse s.req)) := by
  unfold execute executeResponse
  cases decodeWord s.req.cmd with
  | ok i => exact exec_eq i s
  | error why => rfl

theorem engineMove_busy {s : State} (h : s.phase = .busy) :
    engineMove s = .next (doneWith s (executeResponse s.req)) := by
  unfold engineMove; rw [if_pos h, execute_eq]

theorem engineMove_not_busy {s : State} (h : s.phase ≠ .busy) : engineMove s = .next s := by
  unfold engineMove; rw [if_neg h]

/-! ### The step, turn by turn -/

theorem step_no_turn {s : State} (h : s.turns = []) : step s = engineMove s := by
  simp only [step, takeTurn, h]

theorem step_submit {s : State} {q : Request} {rest : List Turn} (h : s.turns = .host (.submit q) :: rest)
    (hp : s.phase ≠ .busy) : step s = .next (submit q { s with turns := rest }) := by
  simp only [step, takeTurn, h, if_neg hp]

theorem step_submit_held {s : State} {q : Request} {rest : List Turn} (h : s.turns = .host (.submit q) :: rest)
    (hp : s.phase = .busy) : step s = engineMove s := by
  simp only [step, takeTurn, h, if_pos hp]

theorem step_read {s : State} {rest : List Turn} (h : s.turns = .host .read :: rest) :
    step s = readResponse { s with turns := rest } := by
  simp only [step, takeTurn, h]

theorem step_poll {s : State} {rest : List Turn} (h : s.turns = .host .poll :: rest) :
    step s = .next (poll { s with turns := rest }) := by
  simp only [step, takeTurn, h]

theorem step_engine {s : State} {rest : List Turn} (h : s.turns = .engine true :: rest) :
    step s = engineMove { s with turns := rest } := by
  simp only [step, takeTurn, h]

theorem step_latency {s : State} {rest : List Turn} (h : s.turns = .engine false :: rest) :
    step s = .next { s with turns := rest } := by
  simp only [step, takeTurn, h]

theorem step_reset {s : State} {rest : List Turn} (h : s.turns = .reset :: rest) :
    step s = .next (resetInput { s with turns := rest }) := by
  simp only [step, takeTurn, h]

theorem steps_succ {s t : State} (n : Nat) (h : step s = .next t) : steps (n + 1) s = steps n t := by
  simp only [steps, h]

theorem coreRun_succ (M : Host.Core) (n : Nat) (s : M.State) :
    M.run (n + 1) s =
      (match M.step s with
      | .next t => M.run n t
      | .fault why => .fault why
      | .refused why => .refused why) := rfl

/-- `steps` is the host's run of this machine. -/
theorem steps_eq_run (n : Nat) (s : State) : steps n s = Host.Core.run Sys2Proof.core n s := by
  induction n generalizing s with
  | zero => rfl
  | succ n ih =>
    have hc : Host.Core.step Sys2Proof.core s = step s := rfl
    refine Eq.trans ?_ (coreRun_succ Sys2Proof.core n s).symm
    rw [hc]
    simp only [steps]
    cases step s
    · exact ih _
    · rfl
    · rfl

/-- After `withFetchWord` the next step runs the placed operation. -/
theorem step_withFetchWord (s : State) (nbits w : Nat) :
    step (s.withFetchWord nbits w) =
      execute (submit { s.req with cmd := BitVec.ofNat 32 (w % 2 ^ nbits) } s) := rfl

/-- One case for each kind of move, with its guard: the step gives this next state, or is a READ. -/
theorem step_next_or_read (s : State) :
    (∃ rest, s.phase = .busy ∧
      (s.turns = .engine true :: rest ∨
        rest = s.turns ∧ (s.turns = [] ∨ ∃ q more, s.turns = .host (.submit q) :: more)) ∧
      step s = .next { doneWith s (executeResponse s.req) with turns := rest }) ∨
    (∃ rest, (s.turns = .engine false :: rest ∨
        s.phase ≠ .busy ∧ (s.turns = .engine true :: rest ∨ rest = s.turns ∧ s.turns = [])) ∧
      step s = .next { s with turns := rest }) ∨
    (∃ q rest, s.turns = .host (.submit q) :: rest ∧ s.phase ≠ .busy ∧
      step s = .next (submit q { s with turns := rest })) ∨
    (∃ rest, s.turns = .host .poll :: rest ∧ step s = .next (poll { s with turns := rest })) ∨
    (∃ rest, s.turns = .reset :: rest ∧ step s = .next (resetInput { s with turns := rest })) ∨
    (∃ rest, s.turns = .host .read :: rest ∧ step s = readResponse { s with turns := rest }) := by
  cases hs : s.turns with
  | nil =>
    by_cases hp : s.phase = .busy
    · exact .inl ⟨_, hp, .inr ⟨rfl, .inl rfl⟩, by rw [step_no_turn hs, engineMove_busy hp, ← hs]; rfl⟩
    · exact .inr (.inl ⟨_, .inr ⟨hp, .inr ⟨rfl, rfl⟩⟩, by rw [step_no_turn hs, engineMove_not_busy hp, ← hs]⟩)
  | cons u rest =>
    match u with
    | .host (.submit q) =>
      by_cases hp : s.phase = .busy
      · exact .inl ⟨_, hp, .inr ⟨rfl, .inr ⟨q, rest, rfl⟩⟩,
          by rw [step_submit_held hs hp, engineMove_busy hp, ← hs]; rfl⟩
      · exact .inr (.inr (.inl ⟨q, rest, rfl, hp, step_submit hs hp⟩))
    | .host .read => exact .inr (.inr (.inr (.inr (.inr ⟨rest, rfl, step_read hs⟩))))
    | .host .poll => exact .inr (.inr (.inr (.inl ⟨rest, rfl, step_poll hs⟩)))
    | .engine true =>
      by_cases hp : s.phase = .busy
      · exact .inl ⟨rest, hp, .inl rfl, by rw [step_engine hs, engineMove_busy (s := { s with turns := rest }) hp]; rfl⟩
      · exact .inr (.inl ⟨rest, .inr ⟨hp, .inl rfl⟩,
          by rw [step_engine hs, engineMove_not_busy (s := { s with turns := rest }) hp]⟩)
    | .engine false => exact .inr (.inl ⟨rest, .inl rfl, step_latency hs⟩)
    | .reset => exact .inr (.inr (.inr (.inr (.inl ⟨rest, rfl, step_reset hs⟩))))

/-- Everything a step that answers a next state can have done, with its guard. -/
theorem step_cases {s t : State} (h : step s = .next t) :
    (∃ rest, s.phase = .busy ∧
      (s.turns = .engine true :: rest ∨
        rest = s.turns ∧ (s.turns = [] ∨ ∃ q more, s.turns = .host (.submit q) :: more)) ∧
      t = { doneWith s (executeResponse s.req) with turns := rest }) ∨
    (∃ rest, (s.turns = .engine false :: rest ∨
        s.phase ≠ .busy ∧ (s.turns = .engine true :: rest ∨ rest = s.turns ∧ s.turns = [])) ∧
      t = { s with turns := rest }) ∨
    (∃ q rest, s.turns = .host (.submit q) :: rest ∧ s.phase ≠ .busy ∧ t = submit q { s with turns := rest }) ∨
    (∃ rest, s.turns = .host .poll :: rest ∧ t = poll { s with turns := rest }) ∨
    (∃ rest, s.turns = .reset :: rest ∧ t = resetInput { s with turns := rest }) ∨
    (∃ r rest, s.turns = .host .read :: rest ∧ s.phase = .done ∧ s.resp = some r ∧
      t = { s with turns := rest, answers := .response r :: s.answers }) := by
  rcases step_next_or_read s with ⟨rest, hp, hr, e⟩ | ⟨rest, hr, e⟩ | ⟨q, rest, hr, hp, e⟩ | ⟨rest, hr, e⟩ | ⟨rest, hr, e⟩ |
    ⟨rest, hr, e⟩ <;> rw [e] at h
  · cases h; exact .inl ⟨rest, hp, hr, rfl⟩
  · cases h; exact .inr (.inl ⟨rest, hr, rfl⟩)
  · cases h; exact .inr (.inr (.inl ⟨q, rest, hr, hp, rfl⟩))
  · cases h; exact .inr (.inr (.inr (.inl ⟨rest, hr, rfl⟩)))
  · cases h; exact .inr (.inr (.inr (.inr (.inl ⟨rest, hr, rfl⟩))))
  · refine .inr (.inr (.inr (.inr (.inr ?_))))
    by_cases hp : s.phase = .done
    · cases hq : s.resp with
      | none => simp [readResponse, hp, hq] at h
      | some r =>
        rw [readResponse_done (s := { s with turns := rest }) hp hq] at h
        cases h; exact ⟨r, rest, hr, hp, rfl, by simp [hq]⟩
    · rw [readResponse_not_done (s := { s with turns := rest }) hp] at h; cases h

end Sys2Proof.Machine
end

