-- ==== Sys2Proof/Laws/Fields.lean ====
section
/-! SUPPORT. Reading text operands field by field: the decimal check, the first bad field, the expander's steps. -/

namespace Sys2Proof.Machine

/-! ### The text operand -/

theorem isDecimal_iff (d : Text) : isDecimal d = true ↔ DecimalField d := by
  simp [isDecimal, DecimalField, isDigit]

theorem textOperand_of_nonempty {q : Request} (h : q.tlen.toNat ≤ 128) (h2 : textOf q ≠ []) :
    textOperand q = .ok (textOf q) := by
  apply textOperand_of_present ⟨?_, h⟩
  have := textOf_length q h
  have := List.length_pos_iff.2 h2
  omega

theorem textOperand_of_nil {q : Request} (h : q.tlen.toNat ≤ 128) (h2 : textOf q = []) :
    textOperand q = .error { status := 1, info := 0xFF } := by
  apply textOperand_of_empty
  have := textOf_length q h
  rw [h2] at this; exact this.symm

/-! ### The first field that fails a test -/

theorem findIdx?_first {α : Type} (p : α → Bool) (u v : List α) (b : α) (h : ∀ c ∈ u, p c = false) (hb : p b = true) :
    (u ++ b :: v).findIdx? p = some u.length := by
  induction u with
  | nil => simp [List.findIdx?_cons, hb]
  | cons c u ih =>
    have := ih (fun c hc => h c (by simp [hc]))
    simp [List.findIdx?_cons, h c (by simp), this]

theorem findIdx?_none_of {α : Type} (p : α → Bool) (l : List α) (h : ∀ c ∈ l, p c = false) : l.findIdx? p = none := by
  simpa using h

/-! ### The IPv6 expander -/

theorem fillGap_after (n : Nat) (fs : List Text) :
    fillGap n true fs = (fs.filter fun f => !f.isEmpty).map (fun f => BitVec.ofNat 16 (hexval f)) := by
  induction fs with
  | nil => rfl
  | cons f fs ih => cases f with
    | nil => simpa [fillGap] using ih
    | cons b bs => simp [fillGap, ih]

theorem fillGap_no_gap (n : Nat) (fs : List Text) (h : ∀ f ∈ fs, f ≠ []) :
    fillGap n false fs = fs.map (fun f => BitVec.ofNat 16 (hexval f)) := by
  induction fs with
  | nil => rfl
  | cons f fs ih =>
    have ih := ih (fun f hf => h f (by simp [hf]))
    have hf : f.isEmpty = false := by simpa using h f (by simp)
    simp only [fillGap, hf]; simpa using ih

theorem fillGap_at (n : Nat) (u v : List Text) (h : ∀ f ∈ u, f ≠ []) :
    fillGap n false (u ++ [] :: v) = u.map (fun f => BitVec.ofNat 16 (hexval f)) ++ List.replicate (8 - n) 0 ++
      (v.filter fun f => !f.isEmpty).map (fun f => BitVec.ofNat 16 (hexval f)) := by
  induction u with
  | nil => simp [fillGap, fillGap_after]
  | cons f fs ih =>
    have ih := ih (fun f hf => h f (by simp [hf]))
    have hf : f.isEmpty = false := by simpa using h f (by simp)
    simp only [List.cons_append, fillGap, hf]; simpa using ih

/-- A text whose bytes are all hex digits or colons has no bad field. -/
theorem badCharField_none {s : Text} (h : ∀ b ∈ s, isHex b = true ∨ b = chColon) : badCharField s = none := by
  unfold badCharField
  rw [findIdx?_none_of]
  intro c hc
  rcases h c hc with h | h
  · simp [h]
  · subst h; decide

/-- The first bad byte names the field by the colons before it. -/
theorem badCharField_some {u v : Text} {b : Byte} (hu : ∀ c ∈ u, isHex c = true ∨ c = chColon)
    (hb : ¬ (isHex b = true ∨ b = chColon)) : badCharField (u ++ b :: v) = some (u.count chColon) := by
  unfold badCharField
  rw [findIdx?_first _ u v b]
  · simp
  · intro c hc
    rcases hu c hc with h | h
    · simp [h]
    · subst h; decide
  · have := not_or.1 hb
    simp [this.1, this.2]

/-- An expansion that raises raises a ParseError. -/
theorem expand6_error_status {s : Text} {e : Raise} (h : expand6 s = .error e) : e.status = 1 := by
  unfold expand6 at h
  dsimp only at h
  split at h
  · cases h; rfl
  · split at h
    · cases h; rfl
    · split at h
      · cases h
      · cases h; rfl

end Sys2Proof.Machine
end

