-- ==== Sys2Proof/Laws/PerInstr.lean ====
section
/-! SUPPORT. Statements about every operation as syntax, one lemma per constructor. -/

/-- The encoder writes a legal command word (spec/30_encoding.md R70 to R72, R90): the opcode is in the map, no reserved
bit is set and each mode bit stands only where it is taken; its opcode and mode bits are the operation's own. -/
def Sys2Proof.Laws.EncodingWellFormed.Statement (i : Sys2Proof.Instr) : Prop :=
  Sys2Proof.commandWellFormed (Sys2Proof.encode i) = true ∧
    Sys2Proof.opcField (Sys2Proof.encode i) = Sys2Proof.opcodeOf i ∧
    Sys2Proof.wideBit (Sys2Proof.encode i) = Sys2Proof.wideOf i ∧
    Sys2Proof.fullBit (Sys2Proof.encode i) = Sys2Proof.fullOf i

namespace Sys2Proof.Laws.EncodingWellFormed

theorem v4Bin : Statement .v4Bin := by unfold Statement; decide
theorem v4Bint : Statement .v4Bint := by unfold Statement; decide
theorem v4Bin4 : Statement .v4Bin4 := by unfold Statement; decide
theorem v4Parse : Statement .v4Parse := by unfold Statement; decide
theorem v4Fmt : Statement .v4Fmt := by unfold Statement; decide
theorem v4And : Statement .v4And := by unfold Statement; decide
theorem v4Inv : Statement .v4Inv := by unfold Statement; decide
theorem v4Bcast : Statement .v4Bcast := by unfold Statement; decide
theorem v4First (wide : Bool) : Statement (.v4First wide) := by cases wide <;> (unfold Statement; decide)
theorem v4Last (wide : Bool) : Statement (.v4Last wide) := by cases wide <;> (unfold Statement; decide)
theorem v4Subnet (wide : Bool) : Statement (.v4Subnet wide) := by cases wide <;> (unfold Statement; decide)
theorem v4Hosts : Statement .v4Hosts := by unfold Statement; decide
theorem v4Cidr : Statement .v4Cidr := by unfold Statement; decide
theorem v6Expand : Statement .v6Expand := by unfold Statement; decide
theorem v6Pfx : Statement .v6Pfx := by unfold Statement; decide
theorem v6Fmt : Statement .v6Fmt := by unfold Statement; decide
theorem v6Bin : Statement .v6Bin := by unfold Statement; decide
theorem v6Mask : Statement .v6Mask := by unfold Statement; decide
theorem v6Net (full : Bool) : Statement (.v6Net full) := by cases full <;> (unfold Statement; decide)
theorem v6Start : Statement .v6Start := by unfold Statement; decide
theorem v6End : Statement .v6End := by unfold Statement; decide
theorem v6Total : Statement .v6Total := by unfold Statement; decide
theorem v6Subnet (full : Bool) : Statement (.v6Subnet full) := by cases full <;> (unfold Statement; decide)

end Sys2Proof.Laws.EncodingWellFormed
end

