-- ==== Sys2Proof/Tests/Slice0.lean ====
section
/-! SUPPORT. The model's own tests. Words come from the opcode map (spec/30_encoding.md R70, R74), results from the vectors
of spec/95_test_vectors.md unless a test names another rule. The witnesses show that the hypotheses of the statements in
Certificates/Slice0/Obligations.lean can be met. -/

namespace Sys2Proof.Tests

open Sys2Proof Sys2Proof.Machine


/-! ### Helpers -/

/-- A text from its characters. -/
def asc (t : List Char) : Text := t.map fun c => BitVec.ofNat 8 c.toNat

/-- A request from a command word and operands; omitted fields are zero (R92). -/
def mk (cmd : CmdWord) (a b : BitVec 128 := 0) (p : BitVec 8 := 0) (t : Text := []) : Request :=
  { cmd := cmd, a := a, b := b, p := p, tlen := BitVec.ofNat 8 t.length, tbuf := padText t }

/-- PHASE = BUSY with q latched and the given turns to come. -/
def busy (q : Request) (turns : List Turn := [.engine true]) : State :=
  { State.reset with phase := .busy, req := q, turns := turns }

/-- PHASE = DONE with r in RESP. -/
def done (r : Response) (turns : List Turn) : State :=
  { State.reset with phase := .done, resp := some r, turns := turns }

/-- PHASE = IDLE with the given turns to come. -/
def idle (turns : List Turn) : State := { State.reset with turns := turns }

/-- RESP after one step in BUSY. -/
def ran (q : Request) : Response :=
  match step (busy q) with
  | .next t => t.resp.getD Response.zero
  | _ => Response.zero

/-- The text result. -/
def txt (r : Response) : Text := r.rtext.toList.take r.rtlen.toNat

/-- The numeric fields R0 to R3, RCOUNT, RPFX, FLAGS and RTLEN. -/
def nums (r : Response) : List Int :=
  [r.r0.toNat, r.r1.toNat, r.r2.toNat, r.r3.toNat, r.rcount.toInt, r.rpfx.toNat, r.flags.toNat, r.rtlen.toNat]

/-- STATUS and ERRINFO. -/
def err (r : Response) : Nat × Nat := (r.status.toNat, r.errinfo.toNat)

/-! ### Decoding: the word of every row, written out from R70 and R74 (RSV, F, W, OPC) -/

theorem test_decode_v4Bin : decodeWord 0b0000000000000000000000_0_0_00010000 = .ok .v4Bin := by decide
theorem test_decode_v4Bint : decodeWord 0b0000000000000000000000_0_0_00010001 = .ok .v4Bint := by decide
theorem test_decode_v4Bin4 : decodeWord 0b0000000000000000000000_0_0_00010010 = .ok .v4Bin4 := by decide
theorem test_decode_v4Parse : decodeWord 0b0000000000000000000000_0_0_00010011 = .ok .v4Parse := by decide
theorem test_decode_v4Fmt : decodeWord 0b0000000000000000000000_0_0_00010100 = .ok .v4Fmt := by decide
theorem test_decode_v4And : decodeWord 0b0000000000000000000000_0_0_00100000 = .ok .v4And := by decide
theorem test_decode_v4Inv : decodeWord 0b0000000000000000000000_0_0_00100001 = .ok .v4Inv := by decide
theorem test_decode_v4Bcast : decodeWord 0b0000000000000000000000_0_0_00100010 = .ok .v4Bcast := by decide
theorem test_decode_v4First : decodeWord 0b0000000000000000000000_0_0_00100011 = .ok (.v4First false) ∧
    decodeWord 0b0000000000000000000000_0_1_00100011 = .ok (.v4First true) := by decide
theorem test_decode_v4Last : decodeWord 0b0000000000000000000000_0_0_00100100 = .ok (.v4Last false) ∧
    decodeWord 0b0000000000000000000000_0_1_00100100 = .ok (.v4Last true) := by decide
theorem test_decode_v4Subnet : decodeWord 0b0000000000000000000000_0_0_00101000 = .ok (.v4Subnet false) ∧
    decodeWord 0b0000000000000000000000_0_1_00101000 = .ok (.v4Subnet true) := by decide
theorem test_decode_v4Hosts : decodeWord 0b0000000000000000000000_0_0_00110000 = .ok .v4Hosts := by decide
theorem test_decode_v4Cidr : decodeWord 0b0000000000000000000000_0_0_00110001 = .ok .v4Cidr := by decide
theorem test_decode_v6Expand : decodeWord 0b0000000000000000000000_0_0_01000000 = .ok .v6Expand := by decide
theorem test_decode_v6Pfx : decodeWord 0b0000000000000000000000_0_0_01000001 = .ok .v6Pfx := by decide
theorem test_decode_v6Fmt : decodeWord 0b0000000000000000000000_0_0_01000010 = .ok .v6Fmt := by decide
theorem test_decode_v6Bin : decodeWord 0b0000000000000000000000_0_0_01000011 = .ok .v6Bin := by decide
theorem test_decode_v6Mask : decodeWord 0b0000000000000000000000_0_0_01010000 = .ok .v6Mask := by decide
theorem test_decode_v6Net : decodeWord 0b0000000000000000000000_0_0_01010001 = .ok (.v6Net false) ∧
    decodeWord 0b0000000000000000000000_1_0_01010001 = .ok (.v6Net true) := by decide
theorem test_decode_v6Start : decodeWord 0b0000000000000000000000_0_0_01010010 = .ok .v6Start := by decide
theorem test_decode_v6End : decodeWord 0b0000000000000000000000_0_0_01010011 = .ok .v6End := by decide
theorem test_decode_v6Total : decodeWord 0b0000000000000000000000_0_0_01010100 = .ok .v6Total := by decide
theorem test_decode_v6Subnet : decodeWord 0b0000000000000000000000_0_0_01011000 = .ok (.v6Subnet false) ∧
    decodeWord 0b0000000000000000000000_1_0_01011000 = .ok (.v6Subnet true) := by decide

/-- The table's numbering is the command word's own (R70). -/
theorem test_decodeTableWord : decodeTableWord 32 0x51 = some (.v6Net false) ∧ decodeTableWord 32 0x251 = some (.v6Net true) ∧
    decodeTableWord 32 0x15 = none ∧ decodeTableWord 8 0x10 = some .v4Bin := by decide

/-- R74's map has 23 opcodes, all different. -/
theorem test_opcode_count : legalOpcodes.length = 23 ∧ legalOpcodes.Nodup := by decide

/-! ### Well-formedness: one ill-formed request for each check of R90, refused (spec/95 section 2.6) -/

theorem test_refuse_unknown_opcode : requestWellFormed 0x15 0 = false ∧ opcodeKnown 0x15 = false ∧
    decodeWord 0x15 = .error .unknownOpcode ∧ err (ran (mk 0x000001FF)) = (3, 1) := by decide

theorem test_refuse_reserved_bit : requestWellFormed 0x420 0 = false ∧ reservedClear 0x420 = false ∧
    decodeWord 0x80000020 = .error .reservedBit ∧ err (ran (mk 0x420)) = (3, 2) := by decide

theorem test_refuse_misplaced_wide : requestWellFormed 0x120 0 = false ∧ wideAllowed 0x120 = false ∧
    decodeWord 0x120 = .error .modeBit ∧ err (ran (mk 0x120)) = (3, 3) := by decide

theorem test_refuse_misplaced_full : requestWellFormed 0x223 0 = false ∧ fullAllowed 0x223 = false ∧
    decodeWord 0x252 = .error .modeBit ∧ err (ran (mk 0x252)) = (3, 3) := by decide

theorem test_refuse_long_text : requestWellFormed 0x13 200 = false ∧ textFits 0x13 200 = false ∧
    textFits 0x13 128 = true ∧ textFits 0x20 200 = true ∧
    err (ran { mk 0x13 with tlen := 200 }) = (3, 4) := by decide

/-! ### One step of each operation -/

theorem test_v4Bin : (ran (mk 0x10 0xFFFFFFFFFFFFFFFFFFFFFFFFFFFFFF0A)).r0 = 0x0A ∧
    txt (ran (mk 0x10 0xFFFFFFFFFFFFFFFFFFFFFFFFFFFFFF0A)) = (asc ['0','0','0','0','1','0','1','0']) := by decide

theorem test_v4Bint : (ran (mk 0x11 0 0 0 (asc ['1','9','2']))).r0 = 0xC0 ∧
    txt (ran (mk 0x11 0 0 0 (asc ['1','9','2']))) = (asc ['1','1','0','0','0','0','0','0']) := by decide

theorem test_v4Bint_errors : err (ran (mk 0x11 0 0 0 (asc ['2','5','6']))) = (2, 0) ∧ err (ran (mk 0x11 0 0 0 (asc ['1','.','0']))) = (1, 0) ∧
    err (ran (mk 0x11)) = (1, 0xFF) := by decide

theorem test_v4Bin4 : (ran (mk 0x12 0xC0A8010A)).r0 = 0xC0A8010A ∧
    txt (ran (mk 0x12 0xC0A8010A)) =
      (asc ['1','1','0','0','0','0','0','0','1','0','1','0','1','0','0','0','0','0','0','0','0','0','0','1','0','0','0','0','1','0','1','0']) := by decide

theorem test_v4Parse : (ran (mk 0x13 0 0 0 (asc ['0','1','0','.','0','0','0','.','0','0','1','.','2','5','5']))).r0 = 0x0A0001FF ∧
    txt (ran (mk 0x13 0 0 0 (asc ['0','1','0','.','0','0','0','.','0','0','1','.','2','5','5']))) =
      (asc ['1','0','.','0','.','1','.','2','5','5']) := by decide

theorem test_v4Parse_errors : err (ran (mk 0x13 0 0 0 (asc ['3','0','0','.','x','.','1','.','1']))) = (1, 1) ∧
    err (ran (mk 0x13 0 0 0 (asc ['1','.','2','.','3','.','2','5','6']))) = (2, 3) ∧
    err (ran (mk 0x13 0 0 0 (asc ['1','.','2','.','3','.','4','.']))) = (1, 0xFF) := by decide

theorem test_v4Fmt : txt (ran (mk 0x14 0x0A000004)) = (asc ['1','0','.','0','.','0','.','4']) := by decide

theorem test_v4And : (ran (mk 0x20 0x0A141E28 0xFF00FF00)).r0 = 0x0A001E00 ∧ (ran (mk 0x20 0x0A141E28 0xFF00FF00)).flags = 0x01 := by decide

theorem test_v4And_ignores_tlen : (ran { mk 0x20 0x01020304 0xFF000000 with tlen := 200 }).r0 = 0x01000000 ∧
    txt (ran { mk 0x20 0x01020304 0xFF000000 with tlen := 200 }) = (asc ['1','.','0','.','0','.','0']) := by decide

theorem test_v4Inv : (ran (mk 0x21 0 0xFFFFFFFC)).r0 = 0x00000003 ∧ txt (ran (mk 0x21 0 0xFFFFFFFC)) = (asc ['0','.','0','.','0','.','3']) := by decide

theorem test_v4Bcast : (ran (mk 0x22 0xAC100582 0xFFFFF000)).r0 = 0xAC100FFF ∧
    txt (ran (mk 0x22 0xAC100582 0xFFFFF000)) = (asc ['1','7','2','.','1','6','.','1','5','.','2','5','5']) := by decide

theorem test_v4First : txt (ran (mk 0x23 0xC0A8010A 0xFFFFFF00)) = (asc ['1','9','2','.','1','6','8','.','1','.','1']) ∧
    (ran (mk 0x23 0x0A0000FF 0xFFFFFFFF)).r0 = 0x0A000000 ∧ (ran (mk 0x23 0x0A0000FF 0xFFFFFFFF)).flags = 0x02 := by decide

theorem test_v4First_wide : txt (ran (mk 0x123 0x0A0000FF 0xFFFFFFFF)) = (asc ['1','0','.','0','.','1','.','0']) ∧ (ran (mk 0x123 0x0A0000FF 0xFFFFFFFF)).flags = 0 ∧
    (ran (mk 0x123 0xFFFFFFFF 0xFFFFFFFF)).r0 = 0 ∧ (ran (mk 0x123 0xFFFFFFFF 0xFFFFFFFF)).flags = 0x02 := by decide

theorem test_v4Last : txt (ran (mk 0x24 0xC0A8010A 0xFFFFFF00)) = (asc ['1','9','2','.','1','6','8','.','1','.','2','5','4']) ∧
    (ran (mk 0x24 0x0A141E00 0xFFFF00FF)).r0 = 0x0A14FFFF ∧ (ran (mk 0x24 0x0A141E00 0xFFFF00FF)).flags = 0x05 := by decide

theorem test_v4Last_wide : (ran (mk 0x124 0x0A000000 0xFFFFFFFF)).r0 = 0x09FFFFFF ∧ (ran (mk 0x124 0x0A000000 0xFFFFFFFF)).flags = 0 ∧
    (ran (mk 0x124 0 0xFFFFFFFF)).r0 = 0xFFFFFFFF ∧ (ran (mk 0x124 0 0xFFFFFFFF)).flags = 0x04 := by decide

/-- The texts of the edge rows of spec/95, under both values of V4_EDGE_TEXT (R130). -/
theorem test_usable_text_at_the_edge : usableText .unwrapped 0x0A000000 .over = (asc ['1','0','.','0','.','0','.','2','5','6']) ∧
    usableText .wrapped 0x0A000000 .over = (asc ['1','0','.','0','.','0','.','0']) ∧
    usableText .unwrapped 0x0A0000FF .under = (asc ['1','0','.','0','.','0','.','-','1']) ∧
    usableText .wrapped 0x0A0000FF .under = (asc ['1','0','.','0','.','0','.','2','5','5']) := by decide

/-- Scenario A. -/
theorem test_v4Subnet : nums (ran (mk 0x28 0xC0A8010A 0xFFFFFF00)) =
    [0xC0A80100, 0xC0A801FF, 0xC0A80101, 0xC0A801FE, 254, 24, 0, 0] := by decide

theorem test_v4Subnet_edge : nums (ran (mk 0x28 0x0A0000FF 0xFFFFFFFF)) =
    [0x0A0000FF, 0x0A0000FF, 0x0A000000, 0x0A0000FE, -1, 32, 0x0A, 0] := by decide

theorem test_v4Hosts : (ran (mk 0x30 0 0xFFFFFFFF)).rcount = BitVec.allOnes 130 ∧ (ran (mk 0x30 0 0xFFFFFFFF)).rpfx = 32 ∧
    txt (ran (mk 0x30 0 0xFFFFFFFF)) = (asc ['-','1']) ∧ (ran (mk 0x30 0 0xFFFFFFFF)).flags = 0x08 := by decide

theorem test_v4Hosts_all : txt (ran (mk 0x30)) = (asc ['4','2','9','4','9','6','7','2','9','4']) ∧ (ran (mk 0x30)).flags = 0 := by decide

theorem test_v4Cidr : (ran (mk 0x31 0 0xFF)).rpfx = 8 ∧ txt (ran (mk 0x31 0 0xFF)) = (asc ['/','8']) ∧ (ran (mk 0x31 0 0xFF)).flags = 0x01 := by decide

theorem test_v6Expand : (ran (mk 0x40 0 0 0 (asc ['2','0','0','1',':','D','B','8',':',':','1']))).r0 = 0x20010db8000000000000000000000001 ∧
    txt (ran (mk 0x40 0 0 0 (asc ['2','0','0','1',':','D','B','8',':',':','1']))) =
      (asc ['2','0','0','1',':','0','d','b','8',':','0','0','0','0',':','0','0','0','0',':','0','0','0','0',':','0','0','0','0',':','0','0','0','0',':','0','0','0','1']) := by decide

theorem test_v6Expand_quirk : (ran (mk 0x40 0 0 0 (asc ['1',':',':','2',':',':','3']))).r0 = 0x00010000000000000000000000020003 ∧
    (ran (mk 0x40 0 0 0 (asc ['1',':',':','2',':',':','3']))).flags = 0x20 ∧
    err (ran (mk 0x40 0 0 0 (asc [':',':','f','f','f','f',':','1','.','2','.','3','.','4']))) = (1, 3) := by decide

theorem test_v6Pfx : (ran (mk 0x41 0 0 0 (asc ['/','6','4']))).rpfx = 64 ∧ txt (ran (mk 0x41 0 0 0 (asc ['0','0','6','4']))) = (asc ['6','4']) ∧
    err (ran (mk 0x41 0 0 0 (asc ['1','2','9']))) = (2, 0) ∧ err (ran (mk 0x41 0 0 0 (asc ['/','/','6','4']))) = (1, 0) := by decide

theorem test_v6Fmt : txt (ran (mk 0x42 0x20010db8000000000000ffffffffffff)) =
    (asc ['2','0','0','1',':','0','d','b','8',':','0','0','0','0',':','0','0','0','0',':','0','0','0','0',':','f','f','f','f',':','f','f','f','f',':','f','f','f','f']) := by decide

theorem test_v6Bin : (ran (mk 0x43 0x20010db8000000000000000000000001)).rtlen = 128 ∧
    (List.range 16).map (fun j => (ran (mk 0x43 0x20010db8000000000000000000000001)).rtext.toList.getD (16 + j) 0) =
      (asc ['0','0','0','0','1','1','0','1','1','0','1','1','1','0','0','0']) := by decide +kernel

theorem test_v6Mask : (ran (mk 0x50 0 0 50)).r0 = 0xffffffffffffc0000000000000000000 ∧ (ran (mk 0x50 0 0 50)).rpfx = 50 ∧
    err (ran (mk 0x50 0 0 129)) = (2, 0xFF) := by decide

theorem test_v6Net : (ran (mk 0x51 0x20010db885a300000000000000000001 0 32)).r0 = 0x20010db885a300000000000000000000 ∧
    (ran (mk 0x51 0x20010db885a300000000000000000001 0 32)).flags = 0x10 := by decide

theorem test_v6Net_full : (ran (mk 0x251 0x20010db885a300000000000000000001 0 32)).r0 = 0x20010db8000000000000000000000000 ∧
    (ran (mk 0x251 0x20010db885a300000000000000000001 0 32)).flags = 0x10 := by decide

theorem test_v6Start : (ran (mk 0x52 0x20010db885a300000000000000000001 0 32)).r0 = 0x20010db8000000000000000000000000 := by decide

theorem test_v6End : (ran (mk 0x53 0x20010db885a3123456789abcdef01234 0 50)).r0 = 0x20010db885a33fffffffffffffffffff := by decide

theorem test_v6Total : (ran (mk 0x54)).rcount = 340282366920938463463374607431768211456 ∧ txt (ran (mk 0x54 0 0 64)) =
    (asc ['1','8',',','4','4','6',',','7','4','4',',','0','7','3',',','7','0','9',',','5','5','1',',','6','1','6']) := by decide

/-- Scenario C. -/
theorem test_v6Subnet : nums (ran (mk 0x58 0x20010db8000000000000000000000001 0 64)) =
    [0x20010db8000000000000000000000001, 0x20010db8000000000000000000000000, 0x20010db8000000000000000000000000,
      0x20010db800000000ffffffffffffffff, 18446744073709551616, 64, 0, 0] := by decide

theorem test_v6Subnet_full : (ran (mk 0x258 0x20010db885a300000000000000000001 0 32)).r1 = 0x20010db8000000000000000000000000 ∧
    (ran (mk 0x58 0x20010db885a300000000000000000001 0 32)).r1 = 0x20010db885a300000000000000000000 ∧
    (ran (mk 0x258 0x20010db885a300000000000000000001 0 32)).flags = 0x10 := by decide

/-! ### The handshake -/

theorem test_reset_waits : step State.reset = .next State.reset := rfl

theorem test_submit_then_execute :
    ∃ t, steps 3 (idle [.host (.submit (mk 0x14 0x0A000004)), .engine false, .engine true]) = .next t ∧
      t.phase = .done ∧ t.req.cmd = 0x14 ∧ (t.resp.map fun r => r.r0) = some 0x0A000004 ∧ t.turns = [] :=
  ⟨_, rfl, rfl, rfl, by decide, rfl⟩

theorem test_read_in_busy_faults : step (busy (mk 0x14) [.host .read]) = .fault .readOutsideDone := rfl

theorem test_poll_in_busy : ∃ t, step (busy (mk 0x14) [.host .poll]) = .next t ∧ t.answers = [.phase .busy] ∧
    t.phase = .busy ∧ t.resp = none := ⟨_, rfl, rfl, rfl, rfl⟩

/-- Program 4, step 2: RESET in BUSY leaves IDLE and no response (R281). -/
theorem test_reset_in_busy : ∃ t, step (busy (mk 0x51) [.reset, .host .poll]) = .next t ∧ t.phase = .idle ∧
    t.resp = none ∧ t.turns = [.host .poll] := ⟨_, rfl, rfl, rfl, rfl⟩

theorem test_placed_word_runs : ∃ t, step (State.reset.withFetchWord 32 0x54) = .next t ∧ t.phase = .done ∧
    (t.resp.map fun r => r.rcount.toNat) = some 340282366920938463463374607431768211456 := ⟨_, rfl, rfl, by decide⟩

/-! ### Witnesses: the hypotheses of the statements can be met -/

theorem witness_DecodeAcceptsExactlyLegalWords : commandWellFormed 0x123 = true ∧ commandWellFormed 0x00 = false ∧
    commandWellFormed 0x51 = true ∧ commandWellFormed 0x58 = true ∧ commandWellFormed 0x59 = false := by decide

/-- TLEN at its largest legal value, where an operation reads it. -/
theorem witness_ErrorsAndFlagsOnlyWhereNamed : (busy { mk 0x13 with tlen := 128 }).req.tlen.toNat ≤ 128 ∧
    (busy (mk 0x13)).req.tlen.toNat ≤ 128 := by decide

theorem witness_IllegalRequestsAnswerInCheckOrder :
    (∀ q, (busy q).phase = .busy ∧ (busy q).turns = .engine true :: [] ∧ (busy q).req = q) ∧
    opcodeKnown 0x15 = false ∧
    (opcodeKnown 0x420 = true ∧ reservedClear 0x420 = false) ∧
    (opcodeKnown 0x120 = true ∧ reservedClear 0x120 = true ∧ wideAllowed 0x120 = false) ∧
    (opcodeKnown 0x223 = true ∧ reservedClear 0x223 = true ∧ wideAllowed 0x223 = true ∧ fullAllowed 0x223 = false) ∧
    (commandWellFormed 0x13 = true ∧ textFits 0x13 129 = false) ∧
    requestWellFormed 0x13 128 = true ∧ requestWellFormed 0x123 255 = true :=
  ⟨fun _ => ⟨rfl, rfl, rfl⟩, by decide, by decide, by decide, by decide, by decide, by decide, by decide⟩

theorem witness_StepRunsDecodedOperation :
    decodeWord (mk 0x123).cmd = .ok (.v4First true) ∧ (busy (mk 0x123) []).phase = .busy ∧
    (busy (mk 0x123) []).turns = [] ∧ (busy (mk 0x123)).turns = .engine true :: [] ∧
    (busy (mk 0x123) [.host (.submit (mk 0x10))]).turns = .host (.submit (mk 0x10)) :: [] :=
  ⟨by decide, rfl, rfl, rfl, rfl⟩

theorem witness_ResponseDependsOnReadFieldsOnly :
    readsAgree .v4Bin (mk 0x10 0xAB) (mk 0x10 0x1AB 7 9) ∧
    readsAgree .v4Fmt (mk 0x14 0xC0A8010A) (mk 0x14 0xFFFFFFFFFFFFFFFFFFFFFFFFC0A8010A 7) ∧
    readsAgree .v4Parse (mk 0x13 0 0 0 (asc ['1'])) { mk 0x13 5 6 7 (asc ['1', '2']) with tlen := 1 } ∧
    readsAgree (.v4First true) (mk 0x23 1 2) (mk 0x23 1 2 3) ∧
    readsAgree .v4Hosts (mk 0x30 0 2) (mk 0x30 1 2) ∧ readsAgree .v6Bin (mk 0x43 1) (mk 0x43 1 2) ∧
    readsAgree .v6Total (mk 0x54 0 0 5) (mk 0x54 1 2 5) ∧ readsAgree (.v6Net false) (mk 0x51 1 0 5) (mk 0x51 1 2 5) := by
  unfold readsAgree; decide

theorem witness_SubmitLatchesRequest :
    (idle [.host (.submit (mk 0x10))]).turns = .host (.submit (mk 0x10)) :: [] ∧
    (idle [.host (.submit (mk 0x10))]).phase = .idle ∧
    (done Response.zero [.host (.submit (mk 0x10))]).turns = .host (.submit (mk 0x10)) :: [] ∧
    (done Response.zero [.host (.submit (mk 0x10))]).phase = .done := ⟨rfl, rfl, rfl, rfl⟩

theorem witness_OnlySubmitOrResetChangesRequest :
    (∃ t, step (idle [.host (.submit (mk 0x10))]) = .next t ∧ t.req ≠ (idle [.host (.submit (mk 0x10))]).req) ∧
    ∃ t, step (busy (mk 0x10) [.reset]) = .next t ∧ t.req ≠ (busy (mk 0x10) [.reset]).req :=
  ⟨⟨_, rfl, fun h => absurd (congrArg Request.cmd h) (by decide)⟩,
    _, rfl, fun h => absurd (congrArg Request.cmd h) (by decide)⟩

theorem witness_SubmitOfferedWhileBusyIsHeld :
    (busy (mk 0x10) [.host (.submit (mk 0x11)), .host .poll]).turns = .host (.submit (mk 0x11)) :: [.host .poll] ∧
    (busy (mk 0x10) [.host (.submit (mk 0x11)), .host .poll]).phase = .busy := ⟨rfl, rfl⟩

theorem witness_PollReturnsPhaseAndChangesNothing :
    (idle [.host .poll]).turns = .host .poll :: [] ∧ (busy (mk 0x10) [.host .poll]).turns = .host .poll :: [] := ⟨rfl, rfl⟩

/-- A READ that is the last turn, one that another turn follows, and two in a row. -/
theorem witness_ReadsInDoneReturnTheSameResponse :
    (∀ turns, (done Response.zero turns).phase = .done ∧ (done Response.zero turns).resp = some Response.zero) ∧
    (done Response.zero [.host .read]).turns = .host .read :: [] ∧
    (done Response.zero [.host .read, .reset]).turns = .host .read :: [.reset] ∧
    (done Response.zero [.host .read, .host .read]).turns = .host .read :: .host .read :: [] :=
  ⟨fun _ => ⟨rfl, rfl⟩, rfl, rfl, rfl⟩

theorem lawful_zero : Response.zero.Lawful := by unfold Response.Lawful; decide

theorem inv_done (turns : List Turn) : Inv (done Response.zero turns) :=
  ⟨by simp [done], by intro r h; cases h; exact lawful_zero⟩

theorem inv_busy (q : Request) (turns : List Turn) : Inv (busy q turns) :=
  ⟨by simp [busy, State.reset], by intro r h; cases h⟩

/-- Both sides of the equivalence: a read in BUSY and a read in DONE, in good states. -/
theorem witness_StepFaultsExactlyOnReadOutsideDone :
    Inv (busy (mk 0x10) [.host .read]) ∧ (busy (mk 0x10) [.host .read]).phase ≠ .done ∧
    (busy (mk 0x10) [.host .read]).turns = .host .read :: [] ∧
    Inv (done Response.zero [.host .read]) ∧
    step (done Response.zero [.host .read]) ≠ .fault .readOutsideDone :=
  ⟨inv_busy _ _, by decide, rfl, inv_done _, by rintro ⟨⟩⟩

theorem witness_ResetInputReturnsToIdle :
    (busy (mk 0x10) [.reset]).turns = .reset :: [] ∧ (done Response.zero [.reset]).turns = .reset :: [] := ⟨rfl, rfl⟩

theorem witness_ResubmissionAfterResetGivesSameResponse :
    (busy (mk 0x10) [.reset]).turns = .reset :: [] ∧ State.reset.phase ≠ .busy ∧ (done Response.zero []).phase ≠ .busy :=
  ⟨rfl, by decide, by decide⟩

/-- A change of PHASE and of RESP by each move, and an engine turn in IDLE and in DONE, a LATENCY turn in BUSY and an empty
schedule in DONE. -/
theorem witness_PhaseChangesOnlyByHandshakeMoves :
    (∃ t, step (busy (mk 0x10)) = .next t ∧ t.phase ≠ (busy (mk 0x10)).phase ∧ t.resp ≠ (busy (mk 0x10)).resp) ∧
    (∃ t, step (idle [.host (.submit (mk 0x10))]) = .next t ∧ t.phase ≠ (idle []).phase) ∧
    (∃ t, step (done Response.zero [.reset]) = .next t ∧ t.resp ≠ (done Response.zero [.reset]).resp) ∧
    ((idle [.engine true]).phase ≠ .busy ∧ (idle [.engine true]).turns = .engine true :: []) ∧
    ((done Response.zero [.engine true, .host .read]).phase ≠ .busy ∧
      (done Response.zero [.engine true, .host .read]).turns = .engine true :: [.host .read]) ∧
    (busy (mk 0x10) [.engine false]).turns = .engine false :: [] ∧
    ((done Response.zero []).phase ≠ .busy ∧ (done Response.zero []).turns = []) :=
  ⟨⟨_, rfl, by rintro ⟨⟩, by rintro ⟨⟩⟩, ⟨_, rfl, by rintro ⟨⟩⟩, ⟨_, rfl, by rintro ⟨⟩⟩, ⟨by rintro ⟨⟩, rfl⟩,
    ⟨by rintro ⟨⟩, rfl⟩, rfl, by rintro ⟨⟩, rfl⟩

/-- LATENCY steps and polls, then each completing move: an engine turn with a READ after it, a held SUBMIT with a RESET
after it, and the end of the list. -/
theorem witness_BusyPhaseEndsWithItsResponse :
    (∀ turns, (busy (mk 0x10) turns).phase = .busy ∧ (busy (mk 0x10) turns).turns = turns) ∧
    (∀ u ∈ [Turn.engine false, .host .poll], u ≠ .reset ∧ u ≠ .host .read) ∧
    (busy (mk 0x10) [.engine false, .host .poll, .engine true, .host .read]).turns =
      [.engine false, .host .poll] ++ (.engine true :: [.host .read]) ∧
    (busy (mk 0x10) [.engine false, .host .poll, .host (.submit (mk 0x11)), .reset]).turns =
      [.engine false, .host .poll] ++ (.host (.submit (mk 0x11)) :: [.reset]) ∧
    (busy (mk 0x10) [.engine false, .host .poll]).turns = [.engine false, .host .poll] ++ [] :=
  ⟨fun _ => ⟨rfl, rfl⟩, by decide, rfl, rfl, rfl⟩

theorem witness_StepKeepsInv : Inv (busy (mk 0x10)) ∧ ∃ t, step (busy (mk 0x10)) = .next t ∧ t.phase = .done :=
  ⟨inv_busy _ _, _, rfl, rfl⟩

theorem witness_RunWithoutReadsIsSafe :
    Inv (busy (mk 0x10) [.reset, .host .poll, .engine true]) ∧
    ∀ u ∈ (busy (mk 0x10) [.reset, .host .poll, .engine true]).turns, u ≠ .host .read :=
  ⟨inv_busy _ _, by decide⟩

theorem witness_V4BintConvertsDecimalOctet :
    (∀ t ∈ [[], (asc ['1','.','0']), (asc ['2','5','6']), (asc ['2','5','5']), (asc ['0'])],
      (mk 0x11 0 0 0 t).tlen.toNat ≤ 128 ∧ textOf (mk 0x11 0 0 0 t) = t) ∧
    ¬ DecimalField (asc ['1','.','0']) ∧ (DecimalField (asc ['2','5','6']) ∧ 255 < decval (asc ['2','5','6'])) ∧
    (DecimalField (asc ['2','5','5']) ∧ decval (asc ['2','5','5']) ≤ 255) ∧
    (DecimalField (asc ['0']) ∧ decval (asc ['0']) ≤ 255) := by decide

/-- One text for each clause: no text, three fields, a bad first and last field, a first and last field above 255, and
the two ends of the range. -/
theorem witness_V4ParseReadsDottedDecimal :
    (∀ t ∈ [[], (asc ['1','.','2','.','3']), (asc ['.','1','.','2','.','3']), (asc ['1','.','2','.','3','0','0','.','x']),
        (asc ['2','5','6','.','1','.','1','.','1']), (asc ['1','.','2','.','3','.','2','5','6']), (asc ['0','.','0','.','0','.','0']),
        (asc ['2','5','5','.','2','5','5','.','2','5','5','.','2','5','5'])],
      (mk 0x13 0 0 0 t).tlen.toNat ≤ 128 ∧ textOf (mk 0x13 0 0 0 t) = t) ∧
    (split 0x2E (asc ['1','.','2','.','3'])).length ≠ 4 ∧
    split 0x2E (asc ['.','1','.','2','.','3']) = [[], (asc ['1']), (asc ['2']), (asc ['3'])] ∧ ¬ DecimalField [] ∧
    split 0x2E (asc ['1','.','2','.','3','0','0','.','x']) = [(asc ['1']), (asc ['2']), (asc ['3','0','0']), (asc ['x'])] ∧
    (∀ f ∈ [(asc ['1']), (asc ['2']), (asc ['3','0','0'])], DecimalField f) ∧ ¬ DecimalField (asc ['x']) ∧
    split 0x2E (asc ['2','5','6','.','1','.','1','.','1']) = [(asc ['2','5','6']), (asc ['1']), (asc ['1']), (asc ['1'])] ∧
    split 0x2E (asc ['1','.','2','.','3','.','2','5','6']) = [(asc ['1']), (asc ['2']), (asc ['3']), (asc ['2','5','6'])] ∧
    DecimalField (asc ['2','5','6']) ∧ 255 < decval (asc ['2','5','6']) ∧
    (∀ f ∈ [(asc ['1']), (asc ['2']), (asc ['3'])], DecimalField f ∧ decval f ≤ 255) ∧
    split 0x2E (asc ['0','.','0','.','0','.','0']) = [(asc ['0']), (asc ['0']), (asc ['0']), (asc ['0'])] ∧
    split 0x2E (asc ['2','5','5','.','2','5','5','.','2','5','5','.','2','5','5']) = [(asc ['2','5','5']), (asc ['2','5','5']), (asc ['2','5','5']), (asc ['2','5','5'])] ∧
    (∀ f ∈ [(asc ['0']), (asc ['2','5','5'])], DecimalField f ∧ decval f ≤ 255) := by decide

theorem witness_DottedDecimalRoundTrip :
    (mk 0x13 0 0 0 (asc ['0','.','1','0','.','1','.','2','5','5'])).tlen.toNat ≤ 128 ∧
    (∀ f ∈ split 0x2E (textOf (mk 0x13 0 0 0 (asc ['0','.','1','0','.','1','.','2','5','5']))),
      f = [0x30] ∨ f.head? ≠ some 0x30) ∧
    ∃ r, exec .v4Parse (busy (mk 0x13 0 0 0 (asc ['0','.','1','0','.','1','.','2','5','5']))) =
        .next (doneWith (busy (mk 0x13 0 0 0 (asc ['0','.','1','0','.','1','.','2','5','5']))) r) ∧
      r.status = 0 ∧ (busy (mk 0x14 0x000A01FF)).req.a = r.r0 :=
  ⟨by decide, by decide, ran (mk 0x13 0 0 0 (asc ['0','.','1','0','.','1','.','2','5','5'])), rfl, by decide, by decide⟩

theorem witness_PipelineFunctionsOctetwise : 0 < 4 ∧ 3 < 4 := by decide

theorem witness_ContiguousMasksAreTheOnesMasks :
    (0 ≤ 32 ∧ (0 : Addr4).toNat = 2 ^ 32 - 2 ^ (32 - 0)) ∧
    ((1 : Nat) ≤ 32 ∧ (0x80000000 : Addr4).toNat = 2 ^ 32 - 2 ^ (32 - 1)) ∧
    (32 ≤ 32 ∧ (0xFFFFFFFF : Addr4).toNat = 2 ^ 32 - 2 ^ (32 - 32)) ∧
    noncontigFlag 0xFFFFFF00 = false ∧ noncontigFlag 0xFF00FF00 = true := by decide

/-- The longest and the shortest prefix the clause takes, and an address at each edge. -/
theorem witness_UsableRangeModesAgreeOffTheEdge :
    (31 ≤ 31 ∧ (0xFFFFFFFE : Addr4) = ones 31 32) ∧ (0 ≤ 31 ∧ (0 : Addr4) = ones 0 32) ∧
    octet (net4 0x0A0000FF 0xFFFFFFFF) 3 = 255 ∧ octet (bcast4 0x0A000000 0xFFFFFFFF) 3 = 0 ∧
    octet (net4 0x0A000000 0xFFFFFFFF) 3 ≠ 255 ∧ octet (bcast4 0x0A0000FF 0xFFFFFFFF) 3 ≠ 0 := by decide

/-- A bad byte, an over-long field, eight fields without a gap and seven, a gap that is filled and one that is not
enough, and later empty fields. -/
theorem witness_ExpansionFillsTheFirstGap :
    ((asc ['1',':','2','g',':','3']) = (asc ['1',':','2']) ++ 0x67 :: (asc [':','3']) ∧
      (∀ c ∈ (asc ['1',':','2']), isHex c = true ∨ c = 0x3A) ∧ ¬ (isHex 0x67 = true ∨ (0x67 : Byte) = 0x3A)) ∧
    (split 0x3A (asc ['1',':','1','2','3','4','5',':',':']) = [(asc ['1'])] ++ (asc ['1','2','3','4','5']) :: [[], []] ∧
      (∀ b ∈ (asc ['1',':','1','2','3','4','5',':',':']), isHex b = true ∨ b = 0x3A)) ∧
    (split 0x3A (asc ['1',':','2',':','3',':','4',':','5',':','6',':','7',':','8'])).length = 8 ∧
    (∀ f ∈ split 0x3A (asc ['1',':','2',':','3',':','4',':','5',':','6',':','7',':','8']), f.length ≤ 4 ∧ f ≠ []) ∧
    (split 0x3A (asc ['1',':','2',':','3',':','4',':','5',':','6',':','7'])).length ≠ 8 ∧
    (∀ f ∈ split 0x3A (asc ['1',':','2',':','3',':','4',':','5',':','6',':','7']), f.length ≤ 4 ∧ f ≠ []) ∧
    (split 0x3A (asc ['1',':',':','2',':',':','3']) = [(asc ['1'])] ++ [] :: [(asc ['2']), [], (asc ['3'])] ∧
      1 + (8 - (1 + 2)) + 2 = 8) ∧
    (split 0x3A (asc ['1',':','2',':','3',':','4',':','5',':','6',':','7',':','8',':','9',':']) =
        [(asc ['1']), (asc ['2']), (asc ['3']), (asc ['4']), (asc ['5']), (asc ['6']), (asc ['7']), (asc ['8']),
          (asc ['9'])] ++ [] :: [] ∧ 9 + (8 - (9 + 0)) + 0 ≠ 8) := by decide

theorem witness_V6ExpandResult :
    (∀ t ∈ [[], (asc ['1',':','2']), (asc [':',':','1'])],
      (mk 0x40 0 0 0 t).tlen.toNat ≤ 128 ∧ textOf (mk 0x40 0 0 0 t) = t) ∧
    expand6 (asc ['1',':','2']) = .error { status := 1, info := 0xFF } ∧ expand6 (asc [':',':','1']) = .ok 1 := by decide

theorem witness_GapQuirkIsZeroOnTheFiveShapes :
    gapQuirk (asc ['1',':','2']) = false ∧ gapQuirk (asc ['1',':',':','2']) = false ∧ gapQuirk (asc [':',':','1']) = false ∧
    gapQuirk (asc ['1',':',':']) = false ∧ gapQuirk (asc [':',':']) = false ∧ gapQuirk (asc [':']) = true ∧
    gapQuirk (asc [':',':',':']) = true ∧ gapQuirk (asc ['1',':',':','2',':',':','3']) = true ∧ gapQuirk (asc [':','1']) = true := by decide

theorem witness_ExpansionOfFormattedAddressIsIdentity :
    ∃ r, exec .v6Fmt (busy (mk 0x42 1)) = .next (doneWith (busy (mk 0x42 1)) r) ∧
      ∃ u : State, u.req.tlen = r.rtlen ∧ u.req.tbuf = r.rtext :=
  ⟨_, rfl, busy { mk 0x40 with tlen := (ran (mk 0x42 1)).rtlen, tbuf := (ran (mk 0x42 1)).rtext }, rfl, rfl⟩

theorem witness_V6PfxReadsPrefixText :
    (∀ t ∈ [[], (asc ['/']), (asc ['1','2','9']), (asc ['/','1','2','8']), (asc ['0'])],
      (mk 0x41 0 0 0 t).tlen.toNat ≤ 128 ∧ textOf (mk 0x41 0 0 0 t) = t) ∧
    ((asc ['/']) = 0x2F :: [] ∧ ¬ DecimalField []) ∧
    ((asc ['1','2','9']).head? ≠ some 0x2F ∧ DecimalField (asc ['1','2','9']) ∧ 128 < decval (asc ['1','2','9'])) ∧
    ((asc ['/','1','2','8']) = 0x2F :: (asc ['1','2','8']) ∧ DecimalField (asc ['1','2','8']) ∧ decval (asc ['1','2','8']) ≤ 128) ∧
    ((asc ['0']).head? ≠ some 0x2F ∧ DecimalField (asc ['0']) ∧ decval (asc ['0']) ≤ 128) := by decide

/-- The ends of both prefix ranges, for V6MaskResult, V6NetResult, V6StartAndEndResults, V6TotalCountsExactly,
V6SubnetComposesItsStages and RangeSizeIsTheAddressCount. -/
theorem witness_prefix_in_and_out_of_range :
    (busy (mk 0x50 0 0 0)).req.p.toNat ≤ 128 ∧ (busy (mk 0x50 0 0 128)).req.p.toNat ≤ 128 ∧
    128 < (busy (mk 0x50 0 0 129)).req.p.toNat ∧ 128 < (busy (mk 0x50 0 0 255)).req.p.toNat := by decide

theorem witness_LongPrefixIsRangeError :
    128 < (busy (mk 0x50 0 0 129)).req.p.toNat ∧ 128 < (busy (mk 0x58 0 0 255)).req.p.toNat ∧
    Instr.v6Subnet true ∈ [Instr.v6Mask, .v6Net true, .v6Start, .v6End, .v6Total, .v6Subnet true] := by decide

theorem witness_LegacyNetworkIsFullExactlyWhenHighGroupsMasked :
    ((48 : Nat) ≤ 48 ∧ (48 : Nat) ≤ 128) ∧ ((48 : Nat) ≤ 128 ∧ (128 : Nat) ≤ 128) ∧ (47 : Nat) < 48 ∧ (0 : Nat) < 48 ∧
    net6Legacy 0x20010db885a300000000000000000001 (mask6 32) ≠
      net6Full 0x20010db885a300000000000000000001 (mask6 32) := by decide

theorem witness_RangeDoesNotDependOnTheQuirk : (0 : Nat) ≤ 128 ∧ (128 : Nat) ≤ 128 := by decide

theorem witness_FieldValuesAreDigitSums : DecimalField (asc ['0']) ∧ DecimalField (asc ['9','0','7']) ∧
    decval (asc ['9','0','7']) = 907 ∧ hexval (asc ['a','F','0']) = 0xaf0 := by decide

theorem witness_DecWritesCanonicalDecimal : dec 0 = (asc ['0']) ∧ (1 : Nat) ≠ 0 ∧
    decInt (-1) = (asc ['-','1']) ∧ dec 4294967294 = (asc ['4','2','9','4','9','6','7','2','9','4']) := by decide

theorem witness_GroupedPutsCommasEveryThreeDigits : 3 < (grouped 999).length + 1 ∧ 1 < (grouped 1000).length ∧
    (grouped 1000).getD 1 0 = 0x2C ∧ grouped 999 = (asc ['9','9','9']) := by decide

theorem witness_ColonHexLayout : 7 < 8 ∧ 6 < 7 ∧ hex4 0x0db8 = (asc ['0','d','b','8']) := by decide

end Sys2Proof.Tests
end

section
/-! PROOFS. The scope statements: contiguous masks (spec/00_scope.md R13, spec/60_exceptions.md R262) and split
(spec/00_scope.md R14). -/

namespace Sys2Proof.Machine

/-! ### Contiguous masks -/

theorem noncontigFlag_eq_false_iff (m : Addr4) : noncontigFlag m = false ↔ m = ones (popcount m) 32 := by
  rw [← Bool.not_eq_true, noncontigFlag_iff, not_not]

/-- The mask of n ones, known by its number. -/
theorem eq_ones_iff_toNat (m : Addr4) {n : Nat} (hn : n ≤ 32) :
    m = ones n 32 ↔ m.toNat = 2 ^ 32 - 2 ^ (32 - n) := by
  rw [← ones_toNat n 32 hn, BitVec.toNat_inj]

/-- Settles O33: the 33 numbers are the ones masks, and the mask of n ones has n ones. -/
theorem contiguousMasksAreTheOnesMasks : Obligations.ContiguousMasksAreTheOnesMasks := by
  intro m
  have hcount : ∀ n, n ≤ 32 → m.toNat = 2 ^ 32 - 2 ^ (32 - n) → popcount m = n := by
    intro n hn hm
    rw [(eq_ones_iff_toNat m hn).mpr hm, popcount_ones n 32 hn]
  refine ⟨⟨fun h => ?_, fun ⟨n, hn, hm⟩ => ?_⟩, hcount⟩
  · rw [noncontigFlag_eq_false_iff] at h
    exact ⟨popcount m, popcount_le m, (eq_ones_iff_toNat m (popcount_le m)).mp h⟩
  · rw [noncontigFlag_eq_false_iff, hcount n hn hm]
    exact (eq_ones_iff_toNat m hn).mpr hm

/-! ### Splitting at a separator -/

theorem split_cons_self (c : Byte) (s : Text) : split c (c :: s) = [] :: split c s := by
  simp [split]

/-- A byte that is no separator joins the first piece of the rest. -/
theorem split_cons_of_ne {b c : Byte} (h : b ≠ c) (s : Text) :
    split c (b :: s) = (split c s).modifyHead (b :: ·) := by
  obtain ⟨f, fs, hs⟩ := List.exists_cons_of_ne_nil (split_ne_nil c s)
  simp [split, h, hs]

/-- The model's split is the library's. -/
theorem split_eq_splitOn (c : Byte) (s : Text) : split c s = s.splitOn c := by
  induction s with
  | nil => simp [split]
  | cons b s ih =>
    rw [List.splitOn_cons_eq_if_modifyHead, ← ih]
    by_cases h : b = c
    · subst h; simp [split_cons_self]
    · simp [split_cons_of_ne h, h]

theorem length_split (c : Byte) (s : Text) : (split c s).length = s.count c + 1 := by
  induction s with
  | nil => rfl
  | cons b s ih =>
    by_cases h : b = c
    · subst h; simp [split_cons_self, ih]
    · simp [split_cons_of_ne h, h, ih]

theorem sep_notMem_of_mem_split (c : Byte) (s : Text) : ∀ f ∈ split c s, c ∉ f := by
  induction s with
  | nil => simp [split]
  | cons b s ih =>
    by_cases h : b = c
    · subst h; simpa [split_cons_self] using ih
    · obtain ⟨f, fs, hs⟩ := List.exists_cons_of_ne_nil (split_ne_nil c s)
      rw [split_cons_of_ne h, hs]
      simpa [hs, Ne.symm h] using ih

/-- The pieces, joined by the separator, are the text. -/
theorem flatten_intersperse_split (c : Byte) (s : Text) : ((split c s).intersperse [c]).flatten = s := by
  rw [split_eq_splitOn]
  exact List.intercalate_splitOn c

/-- Settles O55: the count and the missing separator by induction on the text, the join by the library's splitOn. -/
theorem splitJoinsBack : Obligations.SplitJoinsBack := fun c s =>
  ⟨length_split c s, sep_notMem_of_mem_split c s, flatten_intersperse_split c s⟩

end Sys2Proof.Machine
end

section
/-! PROOFS. What every operation's response is (spec/10_state.md R24 to R31, spec/60_exceptions.md R251 to R260): the shape
of a success, the errors an operation can raise, the request fields it depends on. -/

namespace Sys2Proof.Machine

/-! ### The shape of a success -/

/-- The text result is zero from RTLEN on and fits RTEXT (R25, R89). -/
structure TextPadded (r : Response) : Prop where
  rtlen_le : r.rtlen.toNat ≤ 128
  zero_after : ∀ j : Fin 128, r.rtlen.toNat ≤ j.val → r.rtext[j] = 0

/-- What a response is when operation i raises nothing. -/
structure Success (i : Instr) (r : Response) : Prop where
  status : r.status = 0
  errinfo : r.errinfo = 0
  writes : writesOnly i r
  flags : r.flags &&& ~~~(namedFlags i) = 0
  text : TextPadded r

theorem textPadded_withText (r : Response) {t : Text} (ht : t.length ≤ 128) : TextPadded (withText r t) := by
  have hlen : (withText r t).rtlen.toNat = t.length := (textIs_withText r t ht).1
  refine ⟨hlen ▸ ht, fun j hj => ?_⟩
  rw [hlen] at hj
  rw [withText_rtext, padText_getElem, List.getD_eq_getElem?_getD, List.getElem?_eq_none hj, Option.getD_none]

/-- A response without a text result. -/
theorem textPadded_of_rtext_zero {r : Response} (hlen : r.rtlen = 0) (htext : r.rtext = Vector.replicate 128 0) :
    TextPadded r :=
  ⟨by simp [hlen], fun j _ => by simp [htext]⟩

/-- A success with a text result: what is left to show is its record, its flags and the length of its text. -/
theorem success_withText {i : Instr} {r : Response} {t : Text} (hs : r.status = 0) (he : r.errinfo = 0)
    (hw : writesOnly i (withText r t)) (hf : r.flags &&& ~~~(namedFlags i) = 0) (ht : t.length ≤ 128) :
    Success i (withText r t) :=
  ⟨hs, he, hw, hf, textPadded_withText r ht⟩

/-! ### Flags stay within the named ones, and texts within RTEXT -/

theorem packFlags_noncontig_within (nc : Bool) : packFlags (noncontig := nc) &&& ~~~0b000001#8 = 0 := by
  revert nc; decide

theorem packFlags_first_within (nc ov : Bool) : packFlags (noncontig := nc) (fovf := ov) &&& ~~~0b000011#8 = 0 := by
  revert nc ov; decide

theorem packFlags_last_within (nc un : Bool) : packFlags (noncontig := nc) (lunf := un) &&& ~~~0b000101#8 = 0 := by
  revert nc un; decide

theorem packFlags_hosts_within (nc hl : Bool) : packFlags (noncontig := nc) (hlim := hl) &&& ~~~0b001001#8 = 0 := by
  revert nc hl; decide

theorem packFlags_subnet_within (nc ov un hl : Bool) : packFlags nc ov un hl &&& ~~~0b001111#8 = 0 := by
  revert nc ov un hl; decide

theorem packFlags_v6leg_within (lg : Bool) : packFlags (v6leg := lg) &&& ~~~0b010000#8 = 0 := by
  revert lg; decide

theorem packFlags_gapq_within (gq : Bool) : packFlags (gapq := gq) &&& ~~~0b100000#8 = 0 := by
  revert gq; decide

theorem dotted_fits (x : Addr4) : (dotted x).length ≤ 128 := (dotted_length_le x).trans (by decide)
theorem usableText_fits (c : EdgeText) (x : Addr4) (e : Edge) : (usableText c x e).length ≤ 128 :=
  (usableText_length_le c x e).trans (by decide)
theorem colonhex_fits (x : Addr6) : (colonhex x).length ≤ 128 := (colonhex_length x).trans_le (by decide)
theorem bin_fits {w : Nat} (v : BitVec w) (h : w ≤ 128) : (bin v).length ≤ 128 := (bin_length v).trans_le h

/-! ### Each operation's successes -/

theorem opV4Bint_success {q : Request} {r : Response} (h : opV4Bint q = .ok r) : Success .v4Bint r := by
  obtain ⟨s, -, h⟩ := except_bind_ok h
  split at h
  · cases h
  · split at h
    · cases h
    · cases h; exact success_withText rfl rfl rfl BitVec.zero_and (bin_fits _ (by decide))

theorem opV4Parse_success {q : Request} {r : Response} (h : opV4Parse q = .ok r) : Success .v4Parse r := by
  obtain ⟨s, -, h⟩ := except_bind_ok h
  obtain ⟨x, -, h⟩ := except_bind_ok h
  cases h; exact success_withText rfl rfl rfl BitVec.zero_and (dotted_fits x)

theorem opV4Subnet_success {wide : Bool} {q : Request} {r : Response} (h : opV4Subnet wide q = .ok r) :
    Success (.v4Subnet wide) r := by
  cases h; exact ⟨rfl, rfl, rfl, packFlags_subnet_within _ _ _ _, textPadded_of_rtext_zero rfl rfl⟩

theorem opV6Expand_success {q : Request} {r : Response} (h : opV6Expand q = .ok r) : Success .v6Expand r := by
  obtain ⟨s, -, h⟩ := except_bind_ok h
  obtain ⟨x, -, h⟩ := except_bind_ok h
  cases h; exact success_withText rfl rfl rfl (packFlags_gapq_within _) (colonhex_fits x)

theorem opV6Pfx_success {q : Request} {r : Response} (h : opV6Pfx q = .ok r) : Success .v6Pfx r := by
  obtain ⟨s, -, h⟩ := except_bind_ok h
  dsimp only at h
  split at h
  · cases h
  · split at h
    · cases h
    · rename_i hle
      have hlen := dec_length_le (n := decval (dropSlash s)) (k := 2) (by omega)
      cases h; exact success_withText rfl rfl rfl BitVec.zero_and (hlen.trans (by decide))

theorem opV6Net_success {full : Bool} {q : Request} {r : Response} (h : opV6Net full q = .ok r) :
    Success (.v6Net full) r := by
  obtain ⟨p, -, h⟩ := except_bind_ok h
  cases h; exact success_withText rfl rfl rfl (packFlags_v6leg_within _) (colonhex_fits _)

theorem opV6Subnet_success {full : Bool} {q : Request} {r : Response} (h : opV6Subnet full q = .ok r) :
    Success (.v6Subnet full) r := by
  obtain ⟨p, -, h⟩ := except_bind_ok h
  cases h; exact ⟨rfl, rfl, rfl, packFlags_v6leg_within _, textPadded_of_rtext_zero rfl rfl⟩

/-- An operation that raises nothing gives STATUS OK, writes only its own fields, sets only the flags it names and pads its
text with zeros. -/
theorem opOf_success {i : Instr} {q : Request} {r : Response} (h : opOf i q = .ok r) : Success i r := by
  cases i with
  | v4Bin => cases h; exact success_withText rfl rfl rfl BitVec.zero_and (bin_fits _ (by decide))
  | v4Bint => exact opV4Bint_success h
  | v4Bin4 => cases h; exact success_withText rfl rfl rfl BitVec.zero_and (bin_fits _ (by decide))
  | v4Parse => exact opV4Parse_success h
  | v4Fmt => cases h; exact success_withText rfl rfl rfl BitVec.zero_and (dotted_fits _)
  | v4And => cases h; exact success_withText rfl rfl rfl (packFlags_noncontig_within _) (dotted_fits _)
  | v4Inv => cases h; exact success_withText rfl rfl rfl (packFlags_noncontig_within _) (dotted_fits _)
  | v4Bcast => cases h; exact success_withText rfl rfl rfl (packFlags_noncontig_within _) (dotted_fits _)
  | v4First wide =>
    cases h; exact success_withText rfl rfl rfl (packFlags_first_within _ _) (usableText_fits _ _ _)
  | v4Last wide =>
    cases h; exact success_withText rfl rfl rfl (packFlags_last_within _ _) (usableText_fits _ _ _)
  | v4Subnet wide => exact opV4Subnet_success h
  | v4Hosts =>
    cases h
    exact success_withText rfl rfl rfl (packFlags_hosts_within _ _) ((hosts_text_length_le _).trans (by decide))
  | v4Cidr =>
    cases h
    exact success_withText rfl rfl rfl (packFlags_noncontig_within _) ((cidr_text_length_le _).trans (by decide))
  | v6Expand => exact opV6Expand_success h
  | v6Pfx => exact opV6Pfx_success h
  | v6Fmt => cases h; exact success_withText rfl rfl rfl BitVec.zero_and (colonhex_fits _)
  | v6Bin => cases h; exact success_withText rfl rfl rfl BitVec.zero_and (bin_fits _ (by decide))
  | v6Mask =>
    obtain ⟨p, -, h⟩ := except_bind_ok h
    cases h; exact success_withText rfl rfl rfl BitVec.zero_and (colonhex_fits _)
  | v6Net full => exact opV6Net_success h
  | v6Start =>
    obtain ⟨p, -, h⟩ := except_bind_ok h
    cases h; exact success_withText rfl rfl rfl BitVec.zero_and (colonhex_fits _)
  | v6End =>
    obtain ⟨p, -, h⟩ := except_bind_ok h
    cases h; exact success_withText rfl rfl rfl BitVec.zero_and (colonhex_fits _)
  | v6Total =>
    obtain ⟨p, -, h⟩ := except_bind_ok h
    cases h; exact success_withText rfl rfl rfl BitVec.zero_and ((grouped_total6_length_le p).trans (by decide))
  | v6Subnet full => exact opV6Subnet_success h

/-! ### The errors -/

theorem textOperand_error {q : Request} {e : Raise} (h : textOperand q = .error e) :
    e.status = 1 ∨ e.status = 3 ∧ 128 < q.tlen.toNat := by
  rcases textOperand_cases q with ⟨hlong, h'⟩ | ⟨-, h'⟩ | ⟨-, h'⟩ <;> rw [h'] at h <;> cases h
  · exact .inr ⟨rfl, hlong⟩
  · exact .inl rfl

theorem prefixOperand_error {q : Request} {e : Raise} (h : prefixOperand q = .error e) : e.status = 2 := by
  unfold prefixOperand at h
  split at h <;> cases h
  rfl

/-- An operation that reads P and then answers raises only RangeError (R211). -/
theorem prefixOperand_bind_error {q : Request} {f : Nat → Response} {e : Raise}
    (h : (prefixOperand q >>= fun p => .ok (f p)) = .error e) : e.status = 2 := by
  rcases except_bind_error h with h | ⟨p, -, h⟩
  · exact prefixOperand_error h
  · cases h

theorem parseDotted_error {s : Text} {e : Raise} (h : parseDotted s = .error e) : e.status = 1 ∨ e.status = 2 := by
  unfold parseDotted at h
  dsimp only at h
  split at h
  · split at h
    · cases h; exact .inl rfl
    · split at h
      · cases h; exact .inr rfl
      · cases h
  · cases h; exact .inl rfl

/-- The errors operation i can raise on request q (R255); the last is the length check of R90. -/
def MayRaise (i : Instr) (q : Request) (e : Raise) : Prop :=
  e.status = 1 ∧ raisesParse i = true ∨ e.status = 2 ∧ raisesRange i = true ∨ e.status = 3 ∧ 128 < q.tlen.toNat

/-- A text operation may raise what reading its operand raises. -/
theorem mayRaise_of_textOperand {i : Instr} {q : Request} {e : Raise} (hi : raisesParse i = true)
    (h : textOperand q = .error e) : MayRaise i q e :=
  (textOperand_error h).imp (⟨·, hi⟩) .inr

theorem opV4Bint_error {q : Request} {e : Raise} (h : opV4Bint q = .error e) : MayRaise .v4Bint q e := by
  rcases except_bind_error h with h | ⟨s, -, h⟩
  · exact mayRaise_of_textOperand rfl h
  · split at h
    · cases h; exact .inl ⟨rfl, rfl⟩
    · split at h <;> cases h
      exact .inr (.inl ⟨rfl, rfl⟩)

theorem opV4Parse_error {q : Request} {e : Raise} (h : opV4Parse q = .error e) : MayRaise .v4Parse q e := by
  rcases except_bind_error h with h | ⟨s, -, h⟩
  · exact mayRaise_of_textOperand rfl h
  · rcases except_bind_error h with h | ⟨x, -, h⟩
    · exact (parseDotted_error h).imp (⟨·, rfl⟩) (fun h => .inl ⟨h, rfl⟩)
    · cases h

theorem opV6Expand_error {q : Request} {e : Raise} (h : opV6Expand q = .error e) : MayRaise .v6Expand q e := by
  rcases except_bind_error h with h | ⟨s, -, h⟩
  · exact mayRaise_of_textOperand rfl h
  · rcases except_bind_error h with h | ⟨x, -, h⟩
    · exact .inl ⟨expand6_error_status h, rfl⟩
    · cases h

theorem opV6Pfx_error {q : Request} {e : Raise} (h : opV6Pfx q = .error e) : MayRaise .v6Pfx q e := by
  rcases except_bind_error h with h | ⟨s, -, h⟩
  · exact mayRaise_of_textOperand rfl h
  · dsimp only at h
    split at h
    · cases h; exact .inl ⟨rfl, rfl⟩
    · split at h <;> cases h
      exact .inr (.inl ⟨rfl, rfl⟩)

/-- Every operation raises only what R255 lets it raise: the text operations and the readers of P; the others never. -/
theorem opOf_error {i : Instr} {q : Request} {e : Raise} (h : opOf i q = .error e) : MayRaise i q e := by
  cases i with
  | v4Bint => exact opV4Bint_error h
  | v4Parse => exact opV4Parse_error h
  | v6Expand => exact opV6Expand_error h
  | v6Pfx => exact opV6Pfx_error h
  | v6Mask | v6Net | v6Start | v6End | v6Total | v6Subnet => exact .inr (.inl ⟨prefixOperand_bind_error h, rfl⟩)
  | v4Bin | v4Bin4 | v4Fmt | v4And | v4Inv | v4Bcast | v4First | v4Last | v4Subnet | v4Hosts | v4Cidr | v6Fmt | v6Bin =>
    cases h

theorem writesOnly_failed (i : Instr) (status : BitVec 4) (info : BitVec 8) : writesOnly i (failed status info) := by
  cases i <;> rfl

theorem textPadded_failed (status : BitVec 4) (info : BitVec 8) : TextPadded (failed status info) :=
  textPadded_of_rtext_zero rfl rfl

/-- The response of operation i on request q: a success, or an error the operation may raise. -/
theorem responseOf_opOf_cases (i : Instr) (q : Request) :
    Success i (responseOf (opOf i q)) ∨ ∃ e, MayRaise i q e ∧ responseOf (opOf i q) = failed e.status e.info := by
  cases h : opOf i q with
  | ok r => exact .inl (opOf_success h)
  | error e => exact .inr ⟨e, opOf_error h, responseOf_error e⟩

/-! ### What a response depends on -/

theorem textOperand_congr {q q' : Request} (hlen : q.tlen = q'.tlen) (htext : textOf q = textOf q') :
    textOperand q = textOperand q' := by
  rw [textOf, textOf, hlen] at htext
  simp only [textOperand, hlen, htext]

theorem prefixOperand_congr {q q' : Request} (hp : q.p = q'.p) : prefixOperand q = prefixOperand q' := by
  simp only [prefixOperand, hp]

/-- An operation is a function of the request fields it reads (R31, R74). -/
theorem opOf_congr {i : Instr} {q q' : Request} (h : readsAgree i q q') : opOf i q = opOf i q' := by
  cases i with
  | v4Bin => have ha : octetA q = octetA q' := h; simp only [opOf, opV4Bin, ha]
  | v4Bint => simp only [opOf, opV4Bint, textOperand_congr h.1 h.2]
  | v4Bin4 => have ha : addrA q = addrA q' := h; simp only [opOf, opV4Bin4, ha]
  | v4Parse => simp only [opOf, opV4Parse, textOperand_congr h.1 h.2]
  | v4Fmt => have ha : addrA q = addrA q' := h; simp only [opOf, opV4Fmt, ha]
  | v4And => obtain ⟨ha, hb⟩ : addrA q = addrA q' ∧ maskB q = maskB q' := h; simp only [opOf, opV4And, ha, hb]
  | v4Inv => have hb : maskB q = maskB q' := h; simp only [opOf, opV4Inv, hb]
  | v4Bcast => obtain ⟨ha, hb⟩ : addrA q = addrA q' ∧ maskB q = maskB q' := h; simp only [opOf, opV4Bcast, ha, hb]
  | v4First wide =>
    obtain ⟨ha, hb⟩ : addrA q = addrA q' ∧ maskB q = maskB q' := h; simp only [opOf, opV4First, ha, hb]
  | v4Last wide =>
    obtain ⟨ha, hb⟩ : addrA q = addrA q' ∧ maskB q = maskB q' := h; simp only [opOf, opV4Last, ha, hb]
  | v4Subnet wide =>
    obtain ⟨ha, hb⟩ : addrA q = addrA q' ∧ maskB q = maskB q' := h; simp only [opOf, opV4Subnet, ha, hb]
  | v4Hosts => have hb : maskB q = maskB q' := h; simp only [opOf, opV4Hosts, hb]
  | v4Cidr => have hb : maskB q = maskB q' := h; simp only [opOf, opV4Cidr, hb]
  | v6Expand => simp only [opOf, opV6Expand, textOperand_congr h.1 h.2]
  | v6Pfx => simp only [opOf, opV6Pfx, textOperand_congr h.1 h.2]
  | v6Fmt => have ha : q.a = q'.a := h; simp only [opOf, opV6Fmt, ha]
  | v6Bin => have ha : q.a = q'.a := h; simp only [opOf, opV6Bin, ha]
  | v6Mask => simp only [opOf, opV6Mask, prefixOperand_congr h]
  | v6Net full => obtain ⟨ha, hp⟩ := h; simp only [opOf, opV6Net, ha, prefixOperand_congr hp]
  | v6Start => obtain ⟨ha, hp⟩ := h; simp only [opOf, opV6Start, ha, prefixOperand_congr hp]
  | v6End => obtain ⟨ha, hp⟩ := h; simp only [opOf, opV6End, ha, prefixOperand_congr hp]
  | v6Total => simp only [opOf, opV6Total, prefixOperand_congr h]
  | v6Subnet full => obtain ⟨ha, hp⟩ := h; simp only [opOf, opV6Subnet, ha, prefixOperand_congr hp]

/-! ### The statements about EXECUTE -/

/-- Settles O6: the operation's function of the request is its response. -/
theorem everyOperationCompletesFromRequestAlone : Obligations.EveryOperationCompletesFromRequestAlone := fun i =>
  ⟨fun q => responseOf (opOf i q), exec_eq i⟩

/-- Settles O7: requests that agree on the fields read give the same operation result. -/
theorem responseDependsOnReadFieldsOnly : Obligations.ResponseDependsOnReadFieldsOnly := fun i s t h =>
  ⟨_, exec_eq i s, opOf_congr h ▸ exec_eq i t⟩

/-- Settles O8: for a success and for an error. -/
theorem unwrittenResponseFieldsAreZero : Obligations.UnwrittenResponseFieldsAreZero := fun i s => by
  refine ⟨_, exec_eq i s, ?_⟩
  rcases responseOf_opOf_cases i s.req with hok | ⟨e, -, he⟩
  · exact ⟨hok.writes, hok.text.zero_after⟩
  · rw [he]; exact ⟨writesOnly_failed i _ _, (textPadded_failed _ _).zero_after⟩

/-- Settles O10: a success is OK with its named flags; an error has no flags, and the length check passes. -/
theorem errorsAndFlagsOnlyWhereNamed : Obligations.ErrorsAndFlagsOnlyWhereNamed := fun i s hlen => by
  refine ⟨_, exec_eq i s, ?_⟩
  rcases responseOf_opOf_cases i s.req with hok | ⟨e, hraise, he⟩
  · exact ⟨.inl hok.status, hok.flags⟩
  · rw [he]
    refine ⟨.inr ?_, BitVec.zero_and⟩
    rcases hraise with hparse | hrange | ⟨-, hlong⟩
    · exact .inl hparse
    · exact .inr hrange
    · omega

end Sys2Proof.Machine
end

section
/-! PROOFS. The handshake and the invariant (spec/10_state.md R22 to R33, spec/60_exceptions.md R251, R256): each statement
from the moves that `step_cases` lists. -/

namespace Sys2Proof.Machine

/-! ### Lawful responses -/

/-- A vector with no bit outside m is at most m. -/
theorem toNat_le_of_and_not_eq_zero {w : Nat} {x m : BitVec w} (h : x &&& ~~~m = 0) : x.toNat ≤ m.toNat := by
  have hx : x = x &&& m := by
    calc x = (x &&& m) ||| (x &&& ~~~m) := by rw [← BitVec.and_or_distrib_left, BitVec.or_not_self, BitVec.and_allOnes]
      _ = x &&& m := by rw [h]; exact BitVec.or_zero
  rw [hx, BitVec.toNat_and]
  exact Nat.and_le_right

theorem namedFlags_lt (i : Instr) : (namedFlags i).toNat < 64 := by
  cases i <;> simp [namedFlags]

theorem lawful_of_success {i : Instr} {r : Response} (h : Success i r) : r.Lawful :=
  ⟨by simp [h.status], fun _ => h.errinfo, fun hne => absurd h.status hne,
    (toNat_le_of_and_not_eq_zero h.flags).trans_lt (namedFlags_lt i), h.text.rtlen_le, h.text.zero_after⟩

theorem lawful_failed {status : BitVec 4} (info : BitVec 8) (hpos : status ≠ 0) (hle : status.toNat ≤ 3) :
    (failed status info).Lawful :=
  ⟨hle, fun h0 => absurd h0 hpos, fun _ => rfl, by simp [failed, Response.zero], (textPadded_failed _ _).rtlen_le,
    (textPadded_failed _ _).zero_after⟩

/-- The status of a raised error is one of the codes 1 to 3 (R251). -/
theorem MayRaise.status_code {i : Instr} {q : Request} {e : Raise} (h : MayRaise i q e) :
    e.status ≠ 0 ∧ e.status.toNat ≤ 3 := by
  rcases h with ⟨hs, -⟩ | ⟨hs, -⟩ | ⟨hs, -⟩ <;> rw [hs] <;> decide

/-- The response of every operation is lawful, whatever the request. -/
theorem lawful_responseOf_opOf (i : Instr) (q : Request) : (responseOf (opOf i q)).Lawful := by
  rcases responseOf_opOf_cases i q with hok | ⟨e, hraise, he⟩
  · exact lawful_of_success hok
  · obtain ⟨hpos, hle⟩ := hraise.status_code
    rw [he]; exact lawful_failed e.info hpos hle

/-- EXECUTE gives a lawful response, for an illegal command word too. -/
theorem lawful_executeResponse (q : Request) : (executeResponse q).Lawful := by
  unfold executeResponse
  cases decodeWord q.cmd with
  | ok i => exact lawful_responseOf_opOf i q
  | error why => exact lawful_failed _ (by decide) (by decide)

/-! ### The invariant -/

/-- The invariant speaks of PHASE and RESP alone. -/
theorem Inv.congr {s t : State} (hs : Inv s) (hphase : t.phase = s.phase) (hresp : t.resp = s.resp) : Inv t := by
  unfold Inv at *
  rwa [hphase, hresp]

theorem inv_of_no_response {s : State} (hphase : s.phase ≠ .done) (hresp : s.resp = none) : Inv s :=
  ⟨by simp [hphase, hresp], by simp [hresp]⟩

theorem inv_of_done {s : State} {r : Response} (hphase : s.phase = .done) (hresp : s.resp = some r) (hr : r.Lawful) :
    Inv s :=
  ⟨by simp [hphase, hresp], by simp [hresp, hr]⟩

/-- Settles O22: EXECUTE gives a lawful response in DONE, SUBMIT and RESET leave none, every other move keeps PHASE and
RESP. -/
theorem stepKeepsInv : Obligations.StepKeepsInv := by
  intro s t hs h
  rcases step_cases h with ⟨_, -, -, rfl⟩ | ⟨_, -, rfl⟩ | ⟨q, _, -, -, rfl⟩ | ⟨_, -, rfl⟩ | ⟨_, -, rfl⟩ |
    ⟨r, _, -, -, -, rfl⟩
  · exact inv_of_done rfl rfl (lawful_executeResponse s.req)
  · exact hs.congr rfl rfl
  · exact inv_of_no_response (by simp) (submit_resp q _)
  · exact hs.congr rfl rfl
  · exact inv_of_no_response (by simp) (resetInput_resp _)
  · exact hs.congr rfl rfl

/-- Settles O23: in IDLE RESP holds no value. -/
theorem resetMeetsInv : Obligations.ResetMeetsInv := inv_of_no_response (by decide) rfl

/-! ### SUBMIT, POLL and READ -/

/-- Settles O12: in IDLE and DONE the offered SUBMIT is not held. -/
theorem submitLatchesRequest : Obligations.SubmitLatchesRequest := by
  intro s q rest hturns hphase
  have hnb : s.phase ≠ .busy := by rcases hphase with h | h <;> simp [h]
  exact step_submit hturns hnb

/-- Settles O13: of the moves of a step, SUBMIT and RESET alone write REQ. -/
theorem onlySubmitOrResetChangesRequest : Obligations.OnlySubmitOrResetChangesRequest := by
  refine ⟨fun s q rest hturns hphase => ⟨_, step_submit hturns hphase, rfl⟩, fun s t h hreq => ?_⟩
  rcases step_cases h with ⟨_, -, -, rfl⟩ | ⟨_, -, rfl⟩ | ⟨q, rest, hturns, hphase, rfl⟩ | ⟨_, -, rfl⟩ |
    ⟨rest, hturns, -⟩ | ⟨_, _, -, -, -, rfl⟩
  · exact absurd rfl hreq
  · exact absurd rfl hreq
  · exact .inl ⟨q, rest, hturns, hphase, rfl⟩
  · exact absurd rfl hreq
  · exact .inr ⟨rest, hturns⟩
  · exact absurd rfl hreq

/-- Settles O15: the poll records PHASE as its answer and takes its turn off. -/
theorem pollReturnsPhaseAndChangesNothing : Obligations.PollReturnsPhaseAndChangesNothing :=
  fun _ _ hturns => step_poll hturns

/-- One READ in DONE: the answer is RESP, the block is as before. -/
theorem step_read_done {s : State} {r : Response} {rest : List Turn} (hphase : s.phase = .done) (hresp : s.resp = some r)
    (hturns : s.turns = .host .read :: rest) :
    step s = .next { s with turns := rest, answers := .response r :: s.answers } := by
  rw [step_read hturns]
  exact readResponse_done (s := { s with turns := rest }) hphase hresp

/-- Settles O16: after the first READ PHASE and RESP are as before, so the second answers the same. -/
theorem readsInDoneReturnTheSameResponse : Obligations.ReadsInDoneReturnTheSameResponse := by
  refine ⟨fun s r rest hphase hresp hturns => step_read_done hphase hresp hturns,
    fun s r rest hphase hresp hturns => ?_⟩
  have hfirst := step_read_done hphase hresp hturns
  have hsecond := step_read_done (rest := rest)
    (s := { s with turns := .host .read :: rest, answers := .response r :: s.answers }) hphase hresp rfl
  rw [steps_succ 1 hfirst, steps_succ 0 hsecond]
  rfl

/-! ### PHASE, EXECUTE and reset -/

/-- A move that changes PHASE or RESP is EXECUTE in BUSY, SUBMIT outside BUSY or RESET. -/
theorem step_changes_phase_or_resp {s t : State} (h : step s = .next t) (hchange : t.phase ≠ s.phase ∨ t.resp ≠ s.resp) :
    (s.phase = .busy ∧ t.phase = .done ∧ t.resp.isSome = true ∧ t.req = s.req ∧
      (s.turns = [] ∨ ∃ rest, s.turns = .engine true :: rest ∨ ∃ q, s.turns = .host (.submit q) :: rest)) ∨
    (s.phase ≠ .busy ∧ t.phase = .busy ∧ t.resp = none ∧
      ∃ q rest, s.turns = .host (.submit q) :: rest ∧ t.req = q ∧ t.turns = rest) ∨
    (t.phase = .idle ∧ t.resp = none ∧ ∃ rest, s.turns = .reset :: rest ∧ t.turns = rest) := by
  rcases step_cases h with ⟨rest, hbusy, hturns, rfl⟩ | ⟨_, -, rfl⟩ | ⟨q, rest, hturns, hphase, rfl⟩ | ⟨_, -, rfl⟩ |
    ⟨rest, hturns, rfl⟩ | ⟨_, _, -, -, -, rfl⟩
  · refine .inl ⟨hbusy, rfl, rfl, rfl, ?_⟩
    rcases hturns with hengine | ⟨-, hnil | ⟨q, more, hheld⟩⟩
    · exact .inr ⟨rest, .inl hengine⟩
    · exact .inl hnil
    · exact .inr ⟨more, .inr ⟨q, hheld⟩⟩
  · simp at hchange
  · exact .inr (.inl ⟨hphase, rfl, rfl, q, rest, hturns, rfl, rfl⟩)
  · simp at hchange
  · exact .inr (.inr ⟨rfl, rfl, rest, hturns, rfl⟩)
  · simp at hchange

/-- An engine turn outside BUSY uses up its turn and nothing else, whether or not it would complete a request. -/
theorem step_engine_not_busy {s : State} {completes : Bool} {rest : List Turn} (hphase : s.phase ≠ .busy)
    (hturns : s.turns = .engine completes :: rest) : step s = .next { s with turns := rest } := by
  cases completes with
  | false => exact step_latency hturns
  | true => rw [step_engine hturns]; exact engineMove_not_busy (s := { s with turns := rest }) hphase

/-- Settles O20: the moves that change PHASE or RESP, then the three turns that change nothing of the block. -/
theorem phaseChangesOnlyByHandshakeMoves : Obligations.PhaseChangesOnlyByHandshakeMoves :=
  ⟨fun _ _ => step_changes_phase_or_resp, fun _ _ _ => step_engine_not_busy, fun _ _ => step_latency,
    fun _ hphase hturns => (step_no_turn hturns).trans (engineMove_not_busy hphase)⟩

theorem execute_of_decode {s : State} {i : Instr} (h : decodeWord s.req.cmd = .ok i) : execute s = exec i s := by
  unfold execute; rw [h]

/-- The engine's move in BUSY runs the decoded operation. -/
theorem engineMove_of_decode {s : State} {i : Instr} (hphase : s.phase = .busy) (h : decodeWord s.req.cmd = .ok i) :
    engineMove s = exec i s := by
  unfold engineMove; rw [if_pos hphase, execute_of_decode h]

/-- Settles O5: each of the three turns lets the engine move. -/
theorem stepRunsDecodedOperation : Obligations.StepRunsDecodedOperation := by
  intro s rest q i hphase hdecode
  have hmove := engineMove_of_decode hphase hdecode
  refine ⟨fun hturns => ?_, fun hturns => ?_, fun hturns => ?_⟩
  · rw [step_no_turn hturns, hmove]
  · rw [step_engine hturns]
    exact engineMove_of_decode (s := { s with turns := rest }) hphase hdecode
  · rw [step_submit_held hturns hphase, hmove]

/-- Settles O11: nothing is pending and the engine has no move in IDLE. -/
theorem resetStateIsIdleAndWaits : Obligations.ResetStateIsIdleAndWaits :=
  ⟨rfl, rfl, rfl, rfl, (step_no_turn rfl).trans (engineMove_not_busy (by decide))⟩

end Sys2Proof.Machine
end

section
/-! PROOFS. The decoder and the encoder (spec/30_encoding.md R70 to R74, R90, R91): which words decode, what they decode to,
and the response of an illegal request. -/

namespace Sys2Proof

/-! ### Which words decode -/

/-- A word decodes to the row of its opcode and mode bits, where no check of R90 fails. -/
theorem decodeWord_eq_ok_iff (w : CmdWord) (i : Instr) : decodeWord w = .ok i ↔
    rowOf (opcField w) (wideBit w) (fullBit w) = some i ∧ reservedClear w = true ∧ wideAllowed w = true ∧
      fullAllowed w = true := by
  rw [decodeWord_eq]
  cases rowOf (opcField w) (wideBit w) (fullBit w) with
  | none => simp
  | some i' => cases reservedClear w <;> cases wideAllowed w <;> cases fullAllowed w <;> simp

theorem reservedClear_eq_true_iff (w : CmdWord) : reservedClear w = true ↔ rsvField w = 0#22 := by
  simp [reservedClear]

/-- The opcode is in the map exactly where the map has a row for it. -/
theorem opcodeKnown_eq_true_iff (w : CmdWord) :
    opcodeKnown w = true ↔ ∃ i, rowOf (opcField w) (wideBit w) (fullBit w) = some i := by
  rw [← Option.ne_none_iff_exists', ne_eq, rowOf_none_iff_unknown, Bool.not_eq_false]

theorem commandWellFormed_eq_true_iff (w : CmdWord) : commandWellFormed w = true ↔
    opcodeKnown w = true ∧ reservedClear w = true ∧ wideAllowed w = true ∧ fullAllowed w = true := by
  simp [commandWellFormed, and_assoc]

/-- The legal words are those that decode (R91). -/
theorem commandWellFormed_iff_decodes (w : CmdWord) : commandWellFormed w = true ↔ ∃ i, decodeWord w = .ok i := by
  simp only [commandWellFormed_eq_true_iff, opcodeKnown_eq_true_iff, decodeWord_eq_ok_iff, exists_and_right]

/-- A mode bit is allowed exactly where the row carries it: read `a` as the bit, `b` as "the operation takes it". -/
theorem not_or_eq_true_iff_eq_and (a b : Bool) : (!a || b) = true ↔ a = (a && b) := by
  revert a b; decide

/-- No field of a legal word is lost: the decoded operation has its opcode and its mode bits. -/
theorem decodeWord_ok_fields {w : CmdWord} {i : Instr} (h : decodeWord w = .ok i) :
    opcodeOf i = opcField w ∧ wideOf i = wideBit w ∧ fullOf i = fullBit w := by
  obtain ⟨hrow, -, hwide, hfull⟩ := (decodeWord_eq_ok_iff w i).mp h
  obtain ⟨htakesW, htakesF, hw, hf⟩ := rowOf_modes hrow
  rw [wideAllowed, ← htakesW, not_or_eq_true_iff_eq_and] at hwide
  rw [fullAllowed, ← htakesF, not_or_eq_true_iff_eq_and] at hfull
  exact ⟨opcodeOf_rowOf hrow, hw.trans hwide.symm, hf.trans hfull.symm⟩

/-! ### Decoding inverts encoding -/

/-- The map read back: the row of an operation's opcode and mode bits is the operation. -/
theorem rowOf_opcodeOf (i : Instr) : rowOf (opcodeOf i) (wideOf i) (fullOf i) = some i := by
  cases i <;> rfl

theorem decodeWord_encode (i : Instr) : decodeWord (encode i) = .ok i := by
  obtain ⟨hopc, hwide, hfull, hrsv⟩ := encode_fields i
  obtain ⟨htakesW, htakesF, hw, hf⟩ := rowOf_modes (rowOf_opcodeOf i)
  rw [decodeWord_eq_ok_iff, reservedClear_eq_true_iff, wideAllowed, fullAllowed, opcField, wideBit, fullBit, hopc, hwide,
    hfull, ← htakesW, ← htakesF, not_or_eq_true_iff_eq_and, not_or_eq_true_iff_eq_and]
  exact ⟨rowOf_opcodeOf i, hrsv, hw, hf⟩

/-- A word that decodes is the encoding of what it decodes to. -/
theorem encode_of_decodeWord_ok {w : CmdWord} {i : Instr} (h : decodeWord w = .ok i) : encode i = w := by
  obtain ⟨-, hclear, -, -⟩ := (decodeWord_eq_ok_iff w i).mp h
  obtain ⟨hopc, hwide, hfull⟩ := decodeWord_ok_fields h
  conv_rhs => rw [cmdWord_eq_fields w, (reservedClear_eq_true_iff w).mp hclear]
  rw [encode, hopc, hwide, hfull]

/-- Settles O2: the fields of an encoding decode to its operation, and a word that decodes is put together from them. -/
theorem decodeInvertsEncode : Obligations.DecodeInvertsEncode := fun i _ =>
  ⟨fun h => (encode_of_decodeWord_ok h).symm, fun h => h ▸ decodeWord_encode i⟩

/-- Settles O3: the legal words are those that decode. -/
theorem decodeAcceptsExactlyLegalWords : Obligations.DecodeAcceptsExactlyLegalWords := by
  refine fun w => ⟨fun hlegal => ?_, fun hillegal => ?_⟩
  · obtain ⟨i, hi⟩ := (commandWellFormed_iff_decodes w).mp hlegal
    exact ⟨i, hi, decodeWord_ok_fields hi⟩
  · cases hdecode : decodeWord w with
    | error why => exact ⟨why, rfl⟩
    | ok i =>
      have hlegal := (commandWellFormed_iff_decodes w).mpr ⟨i, hdecode⟩
      simp [hillegal] at hlegal

/-- Settles O1: each word is the encoding of its row. -/
theorem specCommandWordsDecode : Obligations.SpecCommandWordsDecode := by
  simp only [Obligations.SpecCommandWordsDecode, decodeInvertsEncode _ _]
  decide

/-! ### The first failing check -/

theorem decodeWord_of_unknown {w : CmdWord} (h : opcodeKnown w = false) : decodeWord w = .error .unknownOpcode := by
  rw [decodeWord_eq, (rowOf_none_iff_unknown w).mpr h]

theorem decodeWord_of_reserved {w : CmdWord} (hknown : opcodeKnown w = true) (h : reservedClear w = false) :
    decodeWord w = .error .reservedBit := by
  obtain ⟨i, hrow⟩ := (opcodeKnown_eq_true_iff w).mp hknown
  rw [decodeWord_eq, hrow]
  simp [h]

theorem decodeWord_of_mode {w : CmdWord} (hknown : opcodeKnown w = true) (hclear : reservedClear w = true)
    (h : wideAllowed w = false ∨ fullAllowed w = false) : decodeWord w = .error .modeBit := by
  obtain ⟨i, hrow⟩ := (opcodeKnown_eq_true_iff w).mp hknown
  rw [decodeWord_eq, hrow]
  rcases h with h | h <;> simp [hclear, h]

namespace Machine

/-! ### The length check -/

/-- The text operations of R90 are those that can report a ParseError (R255). -/
theorem textOpcodes_contains_opcodeOf (i : Instr) : textOpcodes.contains (opcodeOf i) = raisesParse i := by
  cases i <;> rfl

theorem textFits_eq_false_iff {q : Request} {i : Instr} (h : decodeWord q.cmd = .ok i) :
    textFits q.cmd q.tlen = false ↔ raisesParse i = true ∧ 128 < q.tlen.toNat := by
  obtain ⟨hopc, -, -⟩ := decodeWord_ok_fields h
  rw [textFits, ← hopc, textOpcodes_contains_opcodeOf]
  simp

theorem textOperand_of_long {q : Request} (h : 128 < q.tlen.toNat) :
    textOperand q = .error { status := 3, info := 0x04 } := by
  unfold textOperand; rw [if_pos h]; rfl

/-- A text operation reads its operand first, so a text too long is all it answers. -/
theorem opOf_of_long_text {i : Instr} {q : Request} (hi : raisesParse i = true) (h : 128 < q.tlen.toNat) :
    opOf i q = .error { status := 3, info := 0x04 } := by
  have hbind {α : Type} (f : Text → Except Raise α) : (textOperand q >>= f) = .error { status := 3, info := 0x04 } := by
    rw [textOperand_of_long h]; rfl
  cases i with
  | v4Bint | v4Parse | v6Expand | v6Pfx => exact hbind _
  | v4Bin | v4Bin4 | v4Fmt | v4And | v4Inv | v4Bcast | v4First | v4Last | v4Subnet | v4Hosts | v4Cidr | v6Fmt | v6Bin
  | v6Mask | v6Net | v6Start | v6End | v6Total | v6Subnet => cases hi

/-- An operation that reads no text raises only RangeError, for P. -/
theorem opOf_error_of_no_text {i : Instr} {q : Request} {e : Raise} (hi : raisesParse i = false)
    (h : opOf i q = .error e) : e.status = 2 := by
  cases i with
  | v4Bint | v4Parse | v6Expand | v6Pfx => cases hi
  | v6Mask | v6Net | v6Start | v6End | v6Total | v6Subnet => exact prefixOperand_bind_error h
  | v4Bin | v4Bin4 | v4Fmt | v4And | v4Inv | v4Bcast | v4First | v4Last | v4Subnet | v4Hosts | v4Cidr | v6Fmt | v6Bin =>
    cases h

/-- The operation of a legal request reports no illegal command. -/
theorem opOf_status_ne_illegal {i : Instr} {q : Request} (hfits : ¬ (raisesParse i = true ∧ 128 < q.tlen.toNat)) :
    (responseOf (opOf i q)).status ≠ 3 := by
  cases h : opOf i q with
  | ok r => rw [responseOf_ok, (opOf_success h).status]; decide
  | error e =>
    rw [responseOf_error]
    change e.status ≠ 3
    cases hi : raisesParse i with
    | false => rw [opOf_error_of_no_text hi h]; decide
    | true =>
      rcases opOf_error h with ⟨hs, -⟩ | ⟨hs, -⟩ | ⟨-, hlong⟩
      · rw [hs]; decide
      · rw [hs]; decide
      · exact absurd ⟨hi, hlong⟩ hfits

/-! ### The answer of an engine turn -/

theorem executeResponse_of_error {q : Request} {why : Illegal} (h : decodeWord q.cmd = .error why) :
    executeResponse q = failed 3 (illegalInfo why) := by
  unfold executeResponse; rw [h]

theorem executeResponse_of_ok {q : Request} {i : Instr} (h : decodeWord q.cmd = .ok i) :
    executeResponse q = responseOf (opOf i q) := by
  unfold executeResponse; rw [h]

/-- The engine's turn in BUSY: the latched request is answered and the turn taken off. -/
theorem step_engine_busy {s : State} {rest : List Turn} (hphase : s.phase = .busy)
    (hturns : s.turns = .engine true :: rest) :
    step s = .next { doneWith s (executeResponse s.req) with turns := rest } := by
  rw [step_engine hturns, engineMove_busy (s := { s with turns := rest }) hphase]
  rfl

/-- Settles O4: the decoder's checks give the first four answers, the operand reader the fifth. -/
theorem illegalRequestsAnswerInCheckOrder : Obligations.IllegalRequestsAnswerInCheckOrder := by
  intro s rest hphase hturns ill cmd
  have hstep := step_engine_busy hphase hturns
  have hill {info : BitVec 8} (h : executeResponse s.req = failed 3 info) : ill info := by rwa [h] at hstep
  refine ⟨fun hknown => ?_, fun hknown hclear => ?_, fun hknown hclear hwide => ?_, fun hknown hclear _ hfull => ?_,
    fun hlegal hlong => ?_, fun hlegal => ?_⟩
  · exact hill (executeResponse_of_error (decodeWord_of_unknown hknown))
  · exact hill (executeResponse_of_error (decodeWord_of_reserved hknown hclear))
  · exact hill (executeResponse_of_error (decodeWord_of_mode hknown hclear (.inl hwide)))
  · exact hill (executeResponse_of_error (decodeWord_of_mode hknown hclear (.inr hfull)))
  · obtain ⟨i, hi⟩ := (commandWellFormed_iff_decodes cmd).mp hlegal
    obtain ⟨htext, hlen⟩ := (textFits_eq_false_iff hi).mp hlong
    exact hill (by rw [executeResponse_of_ok hi, opOf_of_long_text htext hlen, responseOf_error])
  · rw [requestWellFormed, Bool.and_eq_true] at hlegal
    obtain ⟨hword, hfits⟩ := hlegal
    obtain ⟨i, hi⟩ := (commandWellFormed_iff_decodes cmd).mp hword
    have hshort : ¬ (raisesParse i = true ∧ 128 < s.req.tlen.toNat) := by
      rw [← textFits_eq_false_iff hi, Bool.not_eq_false]; exact hfits
    exact ⟨i, responseOf (opOf i s.req), encode_of_decodeWord_ok hi, exec_eq i s, opOf_status_ne_illegal hshort,
      executeResponse_of_ok hi ▸ hstep⟩

end Machine

end Sys2Proof
end

section
/-! PROOFS. The text encodings (spec/30_encoding.md R81 to R88): fields as digit sums, the decimal and hexadecimal writers,
the grouping commas, the layout of colon-hex text. -/

namespace Sys2Proof.Machine

/-! ### Fields as digit sums -/

/-- Reading a field from the left in base B gives each digit its power of B. -/
theorem foldl_eq_digit_sum (B : Nat) (digit : Byte → Nat) (d : Text) :
    d.foldl (fun acc b => B * acc + digit b) 0 =
      ((List.range d.length).map fun j => digit (d.getD j 0) * B ^ (d.length - 1 - j)).sum := by
  induction d using List.reverseRecOn with
  | nil => rfl
  | append_singleton d b ih =>
    have hshift : ∀ j ∈ List.range d.length,
        digit ((d ++ [b]).getD j 0) * B ^ ((d ++ [b]).length - 1 - j) =
          B * (digit (d.getD j 0) * B ^ (d.length - 1 - j)) := by
      intro j hj
      rw [List.mem_range] at hj
      have hexp : (d ++ [b]).length - 1 - j = (d.length - 1 - j) + 1 := by simp; omega
      rw [List.getD_append _ _ _ _ hj, hexp, pow_succ]
      ring
    have hlast : digit ((d ++ [b]).getD d.length 0) * B ^ ((d ++ [b]).length - 1 - d.length) = digit b := by simp
    have hrange : List.range (d ++ [b]).length = List.range d.length ++ [d.length] := by
      rw [List.length_append, List.length_singleton, List.range_succ]
    rw [List.foldl_append, List.foldl_cons, List.foldl_nil, ih, ← List.sum_map_mul_left, hrange, List.map_append,
      List.map_singleton, List.sum_append, List.sum_singleton, hlast, List.map_congr_left hshift]

theorem isHex_iff (b : Byte) : isHex b = true ↔ (0x30 ≤ b.toNat ∧ b.toNat ≤ 0x39) ∨
    (0x61 ≤ b.toNat ∧ b.toNat ≤ 0x66) ∨ (0x41 ≤ b.toNat ∧ b.toNat ≤ 0x46) := by
  simp [isHex, isDigit, or_assoc]

/-- Settles O56: both values are the digit sum of their base. -/
theorem fieldValuesAreDigitSums : Obligations.FieldValuesAreDigitSums :=
  ⟨isDecimal_iff, isHex_iff, fun d _ => foldl_eq_digit_sum 10 (fun b => b.toNat - 0x30) d,
    foldl_eq_digit_sum 16 hexDigitVal, by decide⟩

/-! ### dec -/

/-- Induction along dec: a single digit, or the digits of n / 10 and then the last. -/
theorem dec_induction {P : Nat → Text → Prop} (digit : ∀ n, n < 10 → P n [decDigit n])
    (snoc : ∀ n, 10 ≤ n → P (n / 10) (dec (n / 10)) → P n (dec (n / 10) ++ [decDigit (n % 10)])) (n : Nat) :
    P n (dec n) := by
  induction n using Nat.strongRecOn with
  | ind n ih =>
    rcases Nat.lt_or_ge n 10 with h | h
    · exact dec_of_lt h ▸ digit n h
    · exact dec_of_ge h ▸ snoc n h (ih (n / 10) (by omega))

theorem decDigit_range {n : Nat} (h : n < 10) : 0x30 ≤ (decDigit n).toNat ∧ (decDigit n).toNat ≤ 0x39 := by
  rw [decDigit_toNat h]; omega

theorem decimalField_dec (n : Nat) : DecimalField (dec n) := by
  refine dec_induction (P := fun _ t => DecimalField t) (fun n h => ?_) (fun n _ ih => ?_) n
  · simpa [DecimalField] using decDigit_range h
  · refine ⟨by simp, fun b hb => ?_⟩
    rcases List.mem_append.mp hb with hb | hb
    · exact ih.2 b hb
    · exact List.mem_singleton.mp hb ▸ decDigit_range (by omega)

theorem decval_dec (n : Nat) : decval (dec n) = n := by
  refine dec_induction (P := fun n t => decval t = n) (fun n h => ?_) (fun n _ ih => ?_) n
  · simp [decval, decDigit_toNat h]
  · rw [decval_append, ih, decDigit_toNat (by omega)]; omega

/-- dec writes no leading zero but that of 0 itself. -/
theorem head?_dec_ne_zero {n : Nat} (hn : n ≠ 0) : (dec n).head? ≠ some 0x30 := by
  refine dec_induction (P := fun n t => n ≠ 0 → t.head? ≠ some 0x30) (fun n h hn => ?_) (fun n h ih _ => ?_) n hn
  · intro hz
    have hdigit : (decDigit n).toNat = 0x30 := by simpa using congrArg (Option.map BitVec.toNat) hz
    rw [decDigit_toNat h] at hdigit
    omega
  · rw [List.head?_append_of_ne_nil _ (decimalField_dec _).1]
    exact ih (by omega)

theorem decInt_neg {n : Nat} (hn : n ≠ 0) : decInt (-(n : Int)) = chMinus :: dec n := by
  obtain ⟨m, rfl⟩ := Nat.exists_eq_succ_of_ne_zero hn
  rfl

/-- Settles O57: each part by induction along the digits. -/
theorem decWritesCanonicalDecimal : Obligations.DecWritesCanonicalDecimal := fun n =>
  ⟨decimalField_dec n, decval_dec n, head?_dec_ne_zero, rfl, rfl, decInt_neg⟩

/-! ### hex4 -/

theorem hexval_hex4 (v : Seg) : hexval (hex4 v) = v.toNat := by
  have hv := v.isLt
  simp only [hexval, hex4, List.foldl_cons, List.foldl_nil, hexDigitVal_hexDigit, BitVec.extractLsb'_toNat,
    Nat.shiftRight_eq_div_pow]
  omega

theorem hex4_range (v : Seg) :
    ∀ b ∈ hex4 v, (0x30 ≤ b.toNat ∧ b.toNat ≤ 0x39) ∨ (0x61 ≤ b.toNat ∧ b.toNat ≤ 0x66) := by
  simp [hex4, hexDigit_range]

/-- Settles O58: the four digits are the segment's four nibbles. -/
theorem hexFourRoundTrip : Obligations.HexFourRoundTrip := fun v => ⟨hex4_length v, hexval_hex4 v, hex4_range v⟩

/-! ### grouped -/

theorem insertCommas_ne_nil {t : Text} (h : t ≠ []) : insertCommas t ≠ [] := by
  fun_cases insertCommas t with
  | case1 => simp
  | case2 => exact h

/-- Without its commas the text is as before. -/
theorem filter_insertCommas {t : Text} (h : chComma ∉ t) : (insertCommas t).filter (fun b => b ≠ chComma) = t := by
  fun_induction insertCommas t with
  | case1 a b c d rest ih =>
    simp only [List.mem_cons, not_or] at h ih
    obtain ⟨ha, hb, hc, hd⟩ := h
    simpa [insertCommas, Ne.symm ha, Ne.symm hb, Ne.symm hc] using ih hd
  | case2 t _ => exact List.filter_eq_self.mpr fun b hb => by simpa using ne_of_mem_of_not_mem hb h

/-- The commas stand at the places 3, 7, 11, … -/
theorem insertCommas_comma_iff {t : Text} (h : chComma ∉ t) {j : Nat} (hj : j < (insertCommas t).length) :
    (insertCommas t).getD j 0 = chComma ↔ j % 4 = 3 := by
  fun_induction insertCommas t generalizing j with
  | case1 a b c d rest ih =>
    simp only [List.mem_cons, not_or] at h ih
    obtain ⟨ha, hb, hc, hd⟩ := h
    match j with
    | 0 => simpa using Ne.symm ha
    | 1 => simpa using Ne.symm hb
    | 2 => simpa using Ne.symm hc
    | 3 => simp
    | j + 4 => simpa using ih hd (by simpa using hj)
  | case2 t hshort =>
    have hlen : t.length ≤ 3 := by
      match t, hshort with
      | [], _ | [_], _ | [_, _], _ | [_, _, _], _ => simp
      | a :: b :: c :: d :: rest, hshort => exact (hshort a b c d rest rfl).elim
    have hne : t.getD j 0 ≠ chComma := by
      rw [List.getD_eq_getElem _ _ hj]
      exact ne_of_mem_of_not_mem (List.getElem_mem hj) h
    simp only [hne, false_iff]
    omega

/-- The last character stays the last: no comma follows it. -/
theorem getLast?_insertCommas (t : Text) : (insertCommas t).getLast? = t.getLast? := by
  fun_induction insertCommas t with
  | case1 a b c d rest ih =>
    obtain ⟨x, xs, hx⟩ := List.exists_cons_of_ne_nil (insertCommas_ne_nil (List.cons_ne_nil d rest))
    rw [hx] at ih ⊢
    simpa [List.getLast?_cons_cons] using ih
  | case2 => rfl

theorem comma_notMem_dec (n : Nat) : chComma ∉ dec n := fun h =>
  absurd ((decimalField_dec n).2 _ h).1 (by decide)

/-- Settles O59: commas counted from the right are commas put into the reversed digits counted from the left. -/
theorem groupedPutsCommasEveryThreeDigits : Obligations.GroupedPutsCommasEveryThreeDigits := by
  intro n
  have hno : chComma ∉ (dec n).reverse := by simpa using comma_notMem_dec n
  refine ⟨?_, fun j hj => ?_, ?_⟩
  · rw [grouped, List.filter_reverse]
    exact (congrArg List.reverse (filter_insertCommas hno)).trans (List.reverse_reverse _)
  · rw [grouped, List.length_reverse] at hj
    have hplace : (grouped n).getD j 0 = (insertCommas (dec n).reverse).getD ((grouped n).length - 1 - j) 0 := by
      simp [grouped, List.getElem?_reverse hj]
    rw [hplace]
    exact insertCommas_comma_iff hno (by simp only [grouped, List.length_reverse]; omega)
  · rw [grouped, List.head?_reverse, getLast?_insertCommas, List.getLast?_reverse]
    exact fun h => comma_notMem_dec n (List.mem_of_mem_head? h)

/-! ### colonhex -/

/-- Settles O60: the groups and the colons stand where colonhex puts them. -/
theorem colonHexLayout : Obligations.ColonHexLayout := by
  refine fun x => ⟨colonhex_length x, fun i hi => ?_⟩
  interval_cases i <;> simp [colonhex, hex4, chColon]

end Sys2Proof.Machine
end

section
/-! PROOFS. IPv4 conversion (spec/41_ipv4_convert.md R100 to R105): the responses of V4.BIN, V4.BINT, V4.BIN4, V4.PARSE
and V4.FMT, and the dotted-decimal round trip. -/

namespace Sys2Proof.Machine

/-! ### From an operation's result to the step -/

theorem exec_of_opOf_ok {i : Instr} {s : State} {r : Response} (h : opOf i s.req = .ok r) :
    exec i s = .next (doneWith s r) := by
  rw [exec_eq, h, responseOf_ok]

theorem exec_of_opOf_error {i : Instr} {s : State} {e : Raise} (h : opOf i s.req = .error e) :
    exec i s = .next (doneWith s (failed e.status e.info)) := by
  rw [exec_eq, h, responseOf_error]

/-- A step that completes with STATUS OK comes from an operation that raised nothing. -/
theorem opOf_ok_of_exec {i : Instr} {s : State} {r : Response} (h : exec i s = .next (doneWith s r))
    (hr : r.status = 0) : opOf i s.req = .ok r := by
  rw [exec_eq, Host.Outcome.next.injEq] at h
  have hresp : responseOf (opOf i s.req) = r := Option.some.inj (congrArg State.resp h)
  cases hop : opOf i s.req with
  | ok r' => rw [← hresp, hop, responseOf_ok]
  | error e =>
    rw [hop, responseOf_error] at hresp
    have hz : e.status = 0 := (congrArg Response.status hresp).trans hr
    exact absurd hz (opOf_error hop).status_code.1

/-- A text operation with no text to read raises ParseError(0xFF). -/
theorem opOf_of_empty_text {i : Instr} {q : Request} (hi : raisesParse i = true) (hlen : q.tlen.toNat ≤ 128)
    (hnil : textOf q = []) : opOf i q = .error { status := 1, info := 0xFF } := by
  have hbind {α : Type} (f : Text → Except Raise α) : (textOperand q >>= f) = .error { status := 1, info := 0xFF } := by
    rw [textOperand_of_nil hlen hnil]; rfl
  cases i with
  | v4Bint | v4Parse | v6Expand | v6Pfx => exact hbind _
  | v4Bin | v4Bin4 | v4Fmt | v4And | v4Inv | v4Bcast | v4First | v4Last | v4Subnet | v4Hosts | v4Cidr | v6Fmt | v6Bin
  | v6Mask | v6Net | v6Start | v6End | v6Total | v6Subnet => cases hi

/-- A response with R0 and a text result. -/
theorem onlyR0Text_withText (x : BitVec 128) (t : Text) : OnlyR0Text (withText { Response.zero with r0 := x } t) := rfl

/-! ### Reading A and writing bits -/

theorem octetA_toNat (q : Request) : (octetA q).toNat = q.a.toNat % 256 := by simp [octetA]

theorem addrA_toNat (q : Request) : (addrA q).toNat = q.a.toNat % 2 ^ 32 := by simp [addrA]

theorem octetA_getLsbD (q : Request) {i : Nat} (h : i < 8) : (octetA q).getLsbD i = q.a.getLsbD i := by simp [octetA, h]

theorem addrA_getLsbD (q : Request) {i : Nat} (h : i < 32) : (addrA q).getLsbD i = q.a.getLsbD i := by simp [addrA, h]

theorem octet_addrA_toNat (q : Request) {i : Nat} (hi : i < 4) :
    (octet (addrA q) i).toNat = q.a.toNat / 2 ^ (24 - 8 * i) % 256 := by
  rw [octet_toNat, addrA_toNat]
  interval_cases i <;> omega

/-- Character j of a binary string in RTEXT tells bit w - 1 - j (R85). -/
theorem padText_bin_getElem {w : Nat} (v : BitVec w) {j : Fin 128} (hj : j.val < w) :
    (padText (bin v))[j] = if v.getLsbD (w - 1 - j.val) then 0x31 else 0x30 := by
  have hj' : j.val < (bin v).length := by rwa [bin_length]
  rw [padText_getElem, List.getD_eq_getElem _ _ hj', bin_getElem]
  rfl

theorem bin_v4 (a b c d : BitVec 8) : bin (v4 a b c d) = bin a ++ bin b ++ bin c ++ bin d := by
  simp only [v4, bin_append]

/-- Settles O25: the text is the binary string of the octet. -/
theorem v4BinGivesOctetBits : Obligations.V4BinGivesOctetBits := by
  refine fun s => ⟨_, exec_of_opOf_ok rfl, onlyR0Text_withText _ _, ?_, rfl, fun j hj => ?_⟩
  · rw [withText_r0, BitVec.toNat_setWidth_of_le (by decide), octetA_toNat]
  · rw [withText_rtext, padText_bin_getElem _ hj, octetA_getLsbD _ (by omega)]

/-- Settles O27: the 32 bits of an address are those of its octets in order. -/
theorem v4Bin4ConcatenatesOctetBits : Obligations.V4Bin4ConcatenatesOctetBits := by
  intro s
  have htext := textIs_withText { Response.zero with r0 := result4 (addrA s.req) } (bin (addrA s.req))
    (bin_fits _ (by decide))
  refine ⟨_, exec_of_opOf_ok rfl, onlyR0Text_withText _ _, ?_, rfl, fun j hj => ?_, htext, ?_⟩
  · rw [withText_r0, result4_toNat, addrA_toNat]
  · rw [withText_rtext, padText_bin_getElem _ hj, addrA_getLsbD _ (by omega)]
  · rw [← bin_v4, v4_octets]
    exact htext

/-! ### An address as R0 and dotted text: V4.FMT and V4.PARSE -/

/-- The response with x in R0 and its dotted text (R103, R104). -/
def addrResponse (x : Addr4) : Response := withText { Response.zero with r0 := result4 x } (dotted x)

theorem opOf_v4Fmt (q : Request) : opOf .v4Fmt q = .ok (addrResponse (addrA q)) := rfl

theorem onlyR0Text_addrResponse (x : Addr4) : OnlyR0Text (addrResponse x) := rfl

@[simp] theorem addrResponse_r0 (x : Addr4) : (addrResponse x).r0 = result4 x := rfl

theorem textIs_addrResponse (x : Addr4) : TextIs (addrResponse x) (dotted x) := textIs_withText _ _ (dotted_fits x)

/-- Settles O29: the octets of A[31:0] as numbers. -/
theorem v4FmtWritesDottedDecimal : Obligations.V4FmtWritesDottedDecimal := by
  refine fun s => ⟨_, exec_of_opOf_ok (opOf_v4Fmt s.req), onlyR0Text_addrResponse _, ?_, ?_⟩
  · rw [addrResponse_r0, result4_toNat, addrA_toNat]
  · simpa [dotted, octet_addrA_toNat, chDot] using textIs_addrResponse (addrA s.req)

/-! ### Decimal fields, piece by piece -/

theorem isDecimal_eq_false_iff (d : Text) : isDecimal d = false ↔ ¬ DecimalField d := by
  rw [← isDecimal_iff, Bool.not_eq_true]

theorem findIdx?_eq_some_of_getD {p : Text → Bool} {l : List Text} {i : Nat} (hi : i < l.length)
    (hat : p (l.getD i []) = true) (hbefore : ∀ j < i, p (l.getD j []) = false) : l.findIdx? p = some i := by
  rw [List.findIdx?_eq_some_iff_getElem]
  refine ⟨hi, by rwa [List.getD_eq_getElem _ _ hi] at hat, fun j hj => ?_⟩
  have := hbefore j hj
  rw [List.getD_eq_getElem _ _ (hj.trans hi)] at this
  simp [this]

theorem findIdx?_not_isDecimal_eq_none_iff (fs : List Text) :
    fs.findIdx? (fun f => !isDecimal f) = none ↔ ∀ f ∈ fs, DecimalField f := by
  simp only [List.findIdx?_eq_none_iff, Bool.not_eq_false', isDecimal_iff]

theorem findIdx?_above_byte_eq_none_iff (fs : List Text) :
    fs.findIdx? (fun f => decide (255 < decval f)) = none ↔ ∀ f ∈ fs, decval f ≤ 255 := by
  simp only [List.findIdx?_eq_none_iff, decide_eq_false_iff_not, not_lt]

/-- A property of every piece of a list of four, piece by piece. -/
theorem forall_mem_iff_forall_getD {l : List Text} (hl : l.length = 4) {P : Text → Prop} :
    (∀ f ∈ l, P f) ↔ ∀ i < 4, P (l.getD i []) := by
  rw [List.forall_mem_iff_getElem]
  refine ⟨fun h i hi => ?_, fun h i hi => ?_⟩
  · rw [List.getD_eq_getElem _ _ (by omega)]; exact h i (by omega)
  · have := h i (by omega); rwa [List.getD_eq_getElem _ _ (by omega)] at this

/-! ### V4.BINT -/

/-- With a text to read, V4.BINT is its checks and its result (R101). -/
theorem opOf_v4Bint {q : Request} (hlen : q.tlen.toNat ≤ 128) (hne : textOf q ≠ []) : opOf .v4Bint q =
    if !isDecimal (textOf q) then raiseParse (fieldInfo 0)
    else if 255 < decval (textOf q) then raiseRange (fieldInfo 0)
    else .ok (withText { Response.zero with r0 := (BitVec.ofNat 8 (decval (textOf q))).setWidth 128 }
      (bin (BitVec.ofNat 8 (decval (textOf q))))) := by
  rw [opOf, opV4Bint, textOperand_of_nonempty hlen hne]
  rfl

/-- Settles O26: one case per check, in their order. -/
theorem v4BintConvertsDecimalOctet : Obligations.V4BintConvertsDecimalOctet := by
  refine fun s hlen => ⟨fun hnil => exec_of_opOf_error (opOf_of_empty_text rfl hlen hnil), fun hne hbad => ?_,
    fun hdec hbig => ?_, fun hdec hle => ?_⟩
  · have hop := opOf_v4Bint hlen hne
    rw [(isDecimal_eq_false_iff _).mpr hbad, Bool.not_false, if_pos rfl] at hop
    exact exec_of_opOf_error hop
  · have hop := opOf_v4Bint hlen hdec.1
    rw [(isDecimal_iff _).mpr hdec, if_neg (by decide), if_pos hbig] at hop
    exact exec_of_opOf_error hop
  · have hop := opOf_v4Bint hlen hdec.1
    rw [(isDecimal_iff _).mpr hdec, if_neg (by decide), if_neg (Nat.not_lt.mpr hle)] at hop
    refine ⟨_, exec_of_opOf_ok hop, onlyR0Text_withText _ _, ?_, rfl, fun j hj => ?_⟩
    · rw [withText_r0, BitVec.toNat_setWidth_of_le (by decide), BitVec.toNat_ofNat, Nat.mod_eq_of_lt (by omega)]
    · have hj' : 8 - 1 - j.val < 8 := by omega
      rw [withText_rtext, padText_bin_getElem _ hj, BitVec.getLsbD_ofNat, decide_eq_true hj', Bool.true_and]

/-! ### V4.PARSE -/

/-- The address that four decimal fields name. -/
def addrOfFields (fs : List Text) : Addr4 :=
  v4 (BitVec.ofNat 8 (decval (fs.getD 0 []))) (BitVec.ofNat 8 (decval (fs.getD 1 [])))
    (BitVec.ofNat 8 (decval (fs.getD 2 []))) (BitVec.ofNat 8 (decval (fs.getD 3 [])))

theorem parseDotted_of_count {t : Text} (h : (split chDot t).length ≠ 4) : parseDotted t = raiseParse noField := by
  unfold parseDotted
  dsimp only
  split
  · rename_i hs; simp [hs] at h
  · rfl

theorem parseDotted_of_not_decimal {t : Text} {i : Nat} (hcount : (split chDot t).length = 4)
    (h : (split chDot t).findIdx? (fun f => !isDecimal f) = some i) : parseDotted t = raiseParse (fieldInfo i) := by
  obtain ⟨f0, f1, f2, f3, hs⟩ := List.length_eq_four.mp hcount
  unfold parseDotted
  rw [hs] at h ⊢
  simp only [h]

theorem parseDotted_of_above_byte {t : Text} {i : Nat} (hcount : (split chDot t).length = 4)
    (hdecimal : (split chDot t).findIdx? (fun f => !isDecimal f) = none)
    (h : (split chDot t).findIdx? (fun f => decide (255 < decval f)) = some i) :
    parseDotted t = raiseRange (fieldInfo i) := by
  obtain ⟨f0, f1, f2, f3, hs⟩ := List.length_eq_four.mp hcount
  unfold parseDotted
  rw [hs] at h hdecimal ⊢
  simp only [h, hdecimal]

theorem parseDotted_of_fields {t : Text} (hcount : (split chDot t).length = 4)
    (hfields : ∀ f ∈ split chDot t, DecimalField f ∧ decval f ≤ 255) :
    parseDotted t = .ok (addrOfFields (split chDot t)) := by
  have hdecimal := (findIdx?_not_isDecimal_eq_none_iff _).mpr fun f hf => (hfields f hf).1
  have hrange := (findIdx?_above_byte_eq_none_iff _).mpr fun f hf => (hfields f hf).2
  obtain ⟨f0, f1, f2, f3, hs⟩ := List.length_eq_four.mp hcount
  unfold parseDotted
  rw [hs] at hdecimal hrange ⊢
  simp only [hdecimal, hrange]
  rfl

/-- A text with an address has four decimal fields of at most 255, which name the address (R103). -/
theorem parseDotted_ok {t : Text} {x : Addr4} (h : parseDotted t = .ok x) :
    (split chDot t).length = 4 ∧ (∀ f ∈ split chDot t, DecimalField f ∧ decval f ≤ 255) ∧
      x = addrOfFields (split chDot t) := by
  by_cases hcount : (split chDot t).length = 4
  · cases hdecimal : (split chDot t).findIdx? (fun f => !isDecimal f) with
    | some i => rw [parseDotted_of_not_decimal hcount hdecimal] at h; cases h
    | none =>
      cases hrange : (split chDot t).findIdx? (fun f => decide (255 < decval f)) with
      | some i => rw [parseDotted_of_above_byte hcount hdecimal hrange] at h; cases h
      | none =>
        rw [findIdx?_not_isDecimal_eq_none_iff] at hdecimal
        rw [findIdx?_above_byte_eq_none_iff] at hrange
        have hfields : ∀ f ∈ split chDot t, DecimalField f ∧ decval f ≤ 255 := fun f hf => ⟨hdecimal f hf, hrange f hf⟩
        rw [parseDotted_of_fields hcount hfields] at h
        exact ⟨hcount, hfields, (Except.ok.inj h).symm⟩
  · rw [parseDotted_of_count hcount] at h; cases h

/-- With a text to read, V4.PARSE answers with the address that parseDotted finds (R103). -/
theorem opOf_v4Parse {q : Request} (hlen : q.tlen.toNat ≤ 128) (hne : textOf q ≠ []) :
    opOf .v4Parse q = (parseDotted (textOf q)).map addrResponse := by
  rw [opOf, opV4Parse, textOperand_of_nonempty hlen hne]
  rfl

theorem opOf_v4Parse_ok {q : Request} {r : Response} (hlen : q.tlen.toNat ≤ 128) (h : opOf .v4Parse q = .ok r) :
    ∃ x, parseDotted (textOf q) = .ok x ∧ r = addrResponse x := by
  have hne : textOf q ≠ [] := fun hnil => by rw [opOf_of_empty_text rfl hlen hnil] at h; cases h
  rw [opOf_v4Parse hlen hne] at h
  cases hx : parseDotted (textOf q) with
  | ok x => rw [hx] at h; exact ⟨x, rfl, (Except.ok.inj h).symm⟩
  | error e => rw [hx] at h; cases h

theorem ne_nil_of_four_fields {t : Text} (h : (split chDot t).length = 4) : t ≠ [] := by
  rintro rfl
  simp [split] at h

theorem addrOfFields_toNat {fs : List Text} (h : ∀ j < 4, decval (fs.getD j []) ≤ 255) : (addrOfFields fs).toNat =
    decval (fs.getD 0 []) * 2 ^ 24 + decval (fs.getD 1 []) * 2 ^ 16 + decval (fs.getD 2 []) * 2 ^ 8 +
      decval (fs.getD 3 []) := by
  have hbyte : ∀ j < 4, (BitVec.ofNat 8 (decval (fs.getD j []))).toNat = decval (fs.getD j []) := fun j hj =>
    Nat.mod_eq_of_lt (Nat.lt_succ_of_le (h j hj))
  rw [addrOfFields, v4_toNat, hbyte 0 (by decide), hbyte 1 (by decide), hbyte 2 (by decide), hbyte 3 (by decide)]

/-- Settles O28: the count, the first field that is not decimal, the first field above 255, and the address. -/
theorem v4ParseReadsDottedDecimal : Obligations.V4ParseReadsDottedDecimal := by
  intro s hlen
  refine ⟨fun h => ?_, fun i hi hcount hbefore hbad hne => ?_, fun i hi hcount hdec hbefore hbig => ?_,
    fun hcount hfields => ?_⟩
  · by_cases hnil : textOf s.req = []
    · exact exec_of_opOf_error (opOf_of_empty_text rfl hlen hnil)
    · refine exec_of_opOf_error (e := ⟨1, 0xFF⟩) ?_
      rw [opOf_v4Parse hlen hnil, parseDotted_of_count (h.resolve_left hnil)]
      rfl
  · have hfirst := findIdx?_eq_some_of_getD (p := fun f => !isDecimal f) (hi.trans_eq hcount.symm)
      (by simpa only [Bool.not_eq_true', isDecimal_eq_false_iff] using hbad)
      (fun j hj => by simpa only [Bool.not_eq_false', isDecimal_iff] using hbefore j hj)
    refine exec_of_opOf_error (e := ⟨1, fieldInfo i⟩) ?_
    rw [opOf_v4Parse hlen hne, parseDotted_of_not_decimal hcount hfirst]
    rfl
  · have hdecimal := (findIdx?_not_isDecimal_eq_none_iff _).mpr ((forall_mem_iff_forall_getD hcount).mpr hdec)
    have hfirst := findIdx?_eq_some_of_getD (p := fun f => decide (255 < decval f)) (hi.trans_eq hcount.symm)
      (decide_eq_true hbig) (fun j hj => decide_eq_false (Nat.not_lt.mpr (hbefore j hj)))
    refine exec_of_opOf_error (e := ⟨2, fieldInfo i⟩) ?_
    rw [opOf_v4Parse hlen (ne_nil_of_four_fields hcount), parseDotted_of_above_byte hcount hdecimal hfirst]
    rfl
  · have hop : opOf .v4Parse s.req = .ok (addrResponse (addrOfFields (split chDot (textOf s.req)))) := by
      rw [opOf_v4Parse hlen (ne_nil_of_four_fields hcount),
        parseDotted_of_fields hcount ((forall_mem_iff_forall_getD hcount).mpr hfields)]
      rfl
    refine ⟨_, exec_of_opOf_ok hop, onlyR0Text_addrResponse _, ?_, ?_⟩
    · rw [addrResponse_r0, result4_toNat]
      exact addrOfFields_toNat fun j hj => (hfields j hj).2
    · rw [addrResponse_r0, result4_low]
      exact textIs_addrResponse _

/-! ### The round trip -/

theorem decDigit_of_digit {b : Byte} (h : 0x30 ≤ b.toNat ∧ b.toNat ≤ 0x39) : decDigit (b.toNat - 0x30) = b := by
  apply BitVec.eq_of_toNat_eq
  rw [decDigit_toNat (by omega)]
  omega

/-- dec gives back a decimal field without leading zeros. -/
theorem dec_decval {d : Text} (hd : DecimalField d) (hlead : d = [0x30] ∨ d.head? ≠ some 0x30) :
    dec (decval d) = d := by
  induction d using List.reverseRecOn with
  | nil => exact absurd rfl hd.1
  | append_singleton d b ih =>
    have hb := hd.2 b (by simp)
    rcases eq_or_ne d [] with rfl | hne
    · have hval : decval ([] ++ [b]) = b.toNat - 0x30 := by simp [decval]
      rw [hval, dec_of_lt (by omega), decDigit_of_digit hb, List.nil_append]
    · have hhead : d.head? ≠ some 0x30 := by
        rcases hlead with h | h
        · simp [List.append_eq_singleton_iff, hne] at h
        · rwa [List.head?_append_of_ne_nil _ hne] at h
      have ih := ih ⟨hne, fun c hc => hd.2 c (by simp [hc])⟩ (.inr hhead)
      have hpos : decval d ≠ 0 := fun hz => hhead (by rw [← ih, hz]; rfl)
      rw [decval_append, dec_of_ge (by omega)]
      have hdiv : (10 * decval d + (b.toNat - 0x30)) / 10 = decval d := by omega
      have hmod : (10 * decval d + (b.toNat - 0x30)) % 10 = b.toNat - 0x30 := by omega
      rw [hdiv, hmod, ih, decDigit_of_digit hb]

/-- The dotted text of an address read from canonical fields is those fields, joined by dots. -/
theorem dotted_addrOfFields {fs : List Text} (hcount : fs.length = 4)
    (hfields : ∀ f ∈ fs, DecimalField f ∧ decval f ≤ 255)
    (hlead : ∀ f ∈ fs, f = [0x30] ∨ f.head? ≠ some 0x30) : dotted (addrOfFields fs) = (fs.intersperse [chDot]).flatten := by
  have hback : ∀ f ∈ fs, dec (BitVec.ofNat 8 (decval f)).toNat = f := fun f hf => by
    obtain ⟨hdec, hle⟩ := hfields f hf
    rw [BitVec.toNat_ofNat, Nat.mod_eq_of_lt (by omega), dec_decval hdec (hlead f hf)]
  obtain ⟨f0, f1, f2, f3, rfl⟩ := List.length_eq_four.mp hcount
  obtain ⟨h0, h1, h2, h3⟩ := octet_v4 (BitVec.ofNat 8 (decval f0)) (BitVec.ofNat 8 (decval f1))
    (BitVec.ofNat 8 (decval f2)) (BitVec.ofNat 8 (decval f3))
  simp only [List.forall_mem_cons, List.not_mem_nil] at hback
  obtain ⟨e0, e1, e2, e3, -⟩ := hback
  simp only [dotted, addrOfFields, List.getD_cons_zero, List.getD_cons_succ, h0, h1, h2, h3, e0, e1, e2, e3]
  simp

/-- The text of an accepted canonical request is the dotted text of its address. -/
theorem dotted_of_parseDotted_ok {t : Text} {x : Addr4} (h : parseDotted t = .ok x)
    (hlead : ∀ f ∈ split chDot t, f = [0x30] ∨ f.head? ≠ some 0x30) : dotted x = t := by
  obtain ⟨hcount, hfields, rfl⟩ := parseDotted_ok h
  rw [dotted_addrOfFields hcount hfields hlead, flatten_intersperse_split]

/-- Settles O30: the canonical fields of an accepted text are what dec writes of their values. -/
theorem dottedDecimalRoundTrip : Obligations.DottedDecimalRoundTrip := by
  intro s u r hlen hexec hstatus hlead hua
  obtain ⟨x, hx, rfl⟩ := opOf_v4Parse_ok hlen (opOf_ok_of_exec hexec hstatus)
  have htext : TextIs (addrResponse x) (textOf s.req) := dotted_of_parseDotted_ok hx hlead ▸ textIs_addrResponse x
  have hu : addrA u.req = x := by rw [addrA, hua, addrResponse_r0, result4_low]
  exact ⟨htext, _, exec_of_opOf_ok (hu ▸ opOf_v4Fmt u.req), htext⟩

end Sys2Proof.Machine
end

section
/-! PROOFS. The IPv4 pipeline (spec/42_ipv4_pipeline.md R130 to R149): its functions octet by octet, the two usable-range
modes, the responses of V4.AND, V4.INV, V4.BCAST, V4.FIRST and V4.LAST, and V4.SUBNET as their composition. -/

namespace Sys2Proof.Machine

/-! ### Network, inverted mask and broadcast -/

theorem octet_net4 (a m : Addr4) (i : Nat) : octet (net4 a m) i = octet a i &&& octet m i :=
  BitVec.extractLsb'_and

/-- All of an octet's bits lie within the word, so its complement is the octet of the complement. -/
theorem octet_inv4 (m : Addr4) (i : Nat) : octet (inv4 m) i = ~~~(octet m i) := by
  apply BitVec.eq_of_getLsbD_eq
  intro j hj
  have hword : 24 - 8 * i + j < 32 := by omega
  simp [octet, inv4, hj, hword]

theorem octet_inv4_toNat (m : Addr4) (i : Nat) : (octet (inv4 m) i).toNat = 255 - (octet m i).toNat := by
  rw [octet_inv4, BitVec.toNat_not]

theorem bcast4_eq_or_not (a m : Addr4) : bcast4 a m = a ||| ~~~m := by
  have hbit : ∀ x y : Bool, (x && y || !y) = (x || !y) := by decide
  ext i hi
  simp [bcast4, net4, inv4, hbit]

/-- Each bit counts in a vector or in its complement. -/
theorem popcount_add_popcount_not {w : Nat} (v : BitVec w) : popcount v + popcount (~~~v) = w := by
  have hnot : popcount (~~~v) = (List.range w).countP fun i => !v.getLsbD i :=
    List.countP_congr fun i hi => by simp [List.mem_range.mp hi]
  have hlen := List.length_eq_countP_add_countP (fun i => v.getLsbD i) (l := List.range w)
  rw [hnot, popcount]
  simpa using hlen.symm

/-- Settles O32: bitwise operations act octet by octet, and each bit counts in the mask or in its inverse. -/
theorem pipelineFunctionsOctetwise : Obligations.PipelineFunctionsOctetwise := fun a m =>
  ⟨fun i _ => ⟨octet_net4 a m i, octet_inv4_toNat m i⟩, rfl, rfl, bcast4_eq_or_not a m,
    popcount_add_popcount_not m⟩

/-! ### The two usable-range modes -/

theorem octet_three_toNat (x : Addr4) : (octet x 3).toNat = x.toNat % 256 := by simp [octet_toNat]

/-- Both modes add one to the last octet; W = 0 loses a carry out of it. -/
theorem firstUsable_modes_eq_iff (n : Addr4) :
    (firstUsable n false).1 = (firstUsable n true).1 ↔ octet n 3 ≠ 255 := by
  have hn := n.isLt
  rw [← BitVec.toNat_inj, firstUsable_toNat, firstUsable_toNat, ne_eq, ← BitVec.toNat_inj, octet_three_toNat]
  simp only [Bool.false_eq_true, if_false, if_true, BitVec.reduceToNat]
  omega

/-- Both modes take one from the last octet; W = 0 loses a borrow into it. -/
theorem lastUsable_modes_eq_iff (b : Addr4) :
    (lastUsable b false).1 = (lastUsable b true).1 ↔ octet b 3 ≠ 0 := by
  have hb := b.isLt
  rw [← BitVec.toNat_inj, lastUsable_toNat, lastUsable_toNat, ne_eq, ← BitVec.toNat_inj, octet_three_toNat]
  simp only [Bool.false_eq_true, if_false, if_true, BitVec.reduceToNat]
  omega

theorem firstUsable_wide (n : Addr4) : (firstUsable n true).1 = n + 1 := by
  apply BitVec.eq_of_toNat_eq
  rw [firstUsable_toNat, BitVec.toNat_add]
  rfl

theorem lastUsable_wide (b : Addr4) : (lastUsable b true).1 = b - 1 := by
  apply BitVec.eq_of_toNat_eq
  rw [lastUsable_toNat, BitVec.toNat_sub, Nat.add_comm]
  rfl

/-- An even network is at no edge. -/
theorem firstUsable_toNat_of_even {n : Addr4} (h : n.toNat % 2 = 0) (wide : Bool) :
    (firstUsable n wide).1.toNat = n.toNat + 1 := by
  have hn := n.isLt
  rw [firstUsable_toNat]
  split <;> omega

/-- An odd broadcast address is at no edge. -/
theorem lastUsable_toNat_of_odd {b : Addr4} (h : b.toNat % 2 = 1) (wide : Bool) :
    (lastUsable b wide).1.toNat + 1 = b.toNat := by
  have hb := b.isLt
  rw [lastUsable_toNat]
  split <;> omega

theorem ones_getLsbD_zero {n : Nat} (h : n ≤ 31) : (ones n 32).getLsbD 0 = false := by
  rw [ones_getLsbD]
  have : ¬ 32 - n ≤ 0 := by omega
  simp [this]

theorem net4_even_of_mask {m : Addr4} (h : m.getLsbD 0 = false) (a : Addr4) : (net4 a m).toNat % 2 = 0 := by
  have hbit : (net4 a m).getLsbD 0 = false := by rw [net4, BitVec.getLsbD_and, h, Bool.and_false]
  simpa [BitVec.getLsbD, Nat.testBit_zero] using hbit

theorem bcast4_odd_of_mask {m : Addr4} (h : m.getLsbD 0 = false) (a : Addr4) : (bcast4 a m).toNat % 2 = 1 := by
  have hbit : (bcast4 a m).getLsbD 0 = true := by
    rw [bcast4_eq_or_not, BitVec.getLsbD_or, BitVec.getLsbD_not, h]
    simp
  simpa [BitVec.getLsbD, Nat.testBit_zero] using hbit

/-- Settles O37: the modes differ by the carry or borrow of the last octet; a mask of at most 31 ones ends in 0, so the
network is even and the broadcast address odd. -/
theorem usableRangeModesAgreeOffTheEdge : Obligations.UsableRangeModesAgreeOffTheEdge := by
  refine fun a m => ⟨firstUsable_modes_eq_iff _, lastUsable_modes_eq_iff _,
    ⟨firstUsable_wide _, lastUsable_wide _⟩, fun n hn hm wide => ?_⟩
  have hbit : m.getLsbD 0 = false := hm ▸ ones_getLsbD_zero hn
  exact ⟨firstUsable_toNat_of_even (net4_even_of_mask hbit a) wide,
    lastUsable_toNat_of_odd (bcast4_odd_of_mask hbit a) wide⟩

/-! ### An address, its flags and its text: the response of one stage -/

/-- The response with x in R0, the given FLAGS and the text t (R134 to R143). -/
def stageResponse (x : Addr4) (flags : BitVec 8) (t : Text) : Response :=
  withText { Response.zero with r0 := result4 x, flags := flags } t

@[simp] theorem stageResponse_r0 (x : Addr4) (f : BitVec 8) (t : Text) : (stageResponse x f t).r0 = result4 x := rfl
@[simp] theorem stageResponse_flags (x : Addr4) (f : BitVec 8) (t : Text) : (stageResponse x f t).flags = f := rfl

theorem onlyR0TextFlags_stageResponse (x : Addr4) (f : BitVec 8) (t : Text) :
    OnlyR0TextFlags (stageResponse x f t) := rfl

theorem textIs_stageResponse (x : Addr4) (f : BitVec 8) {t : Text} (ht : t.length ≤ 128) :
    TextIs (stageResponse x f t) t := textIs_withText _ _ ht

/-- The network that a request names. -/
abbrev netOf (q : Request) : Addr4 := net4 (addrA q) (maskB q)

/-- The broadcast address that a request names. -/
abbrev bcastOf (q : Request) : Addr4 := bcast4 (addrA q) (maskB q)

/-! ### V4.AND, V4.INV and V4.BCAST -/

theorem packFlags_noncontigFlag (m : Addr4) :
    packFlags (noncontig := noncontigFlag m) = if m = ones (popcount m) 32 then 0 else 1 := by
  split
  · rename_i h; rw [(noncontigFlag_eq_false_iff m).mpr h]; rfl
  · rename_i h; rw [(noncontigFlag_iff m).mpr h]; rfl

/-- A stage that reports x with NONCONTIG alone and the dotted text of x (R134, R136, R138). -/
theorem exec_noncontig_stage {i : Instr} {s : State} {x m : Addr4}
    (h : opOf i s.req = .ok (stageResponse x (packFlags (noncontig := noncontigFlag m)) (dotted x))) :
    ∃ r, exec i s = .next (doneWith s r) ∧ OnlyR0TextFlags r ∧ r.r0 = x.setWidth 128 ∧ TextIs r (dotted x) ∧
      r.flags = if m = ones (popcount m) 32 then 0 else 1 :=
  ⟨_, exec_of_opOf_ok h, onlyR0TextFlags_stageResponse _ _ _, rfl, textIs_stageResponse _ _ (dotted_fits x),
    packFlags_noncontigFlag m⟩

/-- Settles O31: the three operations are such stages. -/
theorem v4AndInvBcastResults : Obligations.V4AndInvBcastResults := fun _ =>
  ⟨exec_noncontig_stage rfl, exec_noncontig_stage rfl, exec_noncontig_stage rfl⟩

/-! ### The text of a usable-range address -/

/-- The first three octets of the address with number n as text, each followed by a dot. -/
def upperOctetsText (n : Nat) : Text :=
  dec (n / 2 ^ 24) ++ [0x2E] ++ dec (n / 2 ^ 16 % 256) ++ [0x2E] ++ dec (n / 2 ^ 8 % 256) ++ [0x2E]

/-- The last octet is no part of the text. -/
theorem upperOctetsText_congr {n n' : Nat} (h : n / 2 ^ 8 = n' / 2 ^ 8) : upperOctetsText n = upperOctetsText n' := by
  have h0 : n / 2 ^ 24 = n' / 2 ^ 24 := by omega
  have h1 : n / 2 ^ 16 = n' / 2 ^ 16 := by omega
  rw [upperOctetsText, upperOctetsText, h0, h1, h]

theorem upperOctetsText_toNat (x : Addr4) : upperOctetsText x.toNat =
    dec (octet x 0).toNat ++ [chDot] ++ dec (octet x 1).toNat ++ [chDot] ++ dec (octet x 2).toNat ++ [chDot] := by
  have hx := x.isLt
  have h0 : (octet x 0).toNat = x.toNat / 2 ^ 24 := by rw [octet_toNat]; omega
  rw [h0, octet_toNat, octet_toNat]
  rfl

/-- The unwrapped text past the upper edge (R130). -/
theorem usableText_unwrapped_over (x : Addr4) :
    usableText .unwrapped x .over = upperOctetsText x.toNat ++ decInt ((x.toNat % 256 : Nat) + 256) := by
  rw [upperOctetsText_toNat, ← octet_three_toNat]; rfl

/-- The unwrapped text past the lower edge (R130). -/
theorem usableText_unwrapped_under (x : Addr4) :
    usableText .unwrapped x .under = upperOctetsText x.toNat ++ decInt ((x.toNat % 256 : Nat) - 256) := by
  rw [upperOctetsText_toNat, ← octet_three_toNat]; rfl

theorem usableText_wrapped (x : Addr4) (e : Edge) : usableText .wrapped x e = dotted x := by
  cases e <;> rfl

theorem usableText_none (c : EdgeText) (x : Addr4) : usableText c x .none = dotted x := rfl

/-- A text can differ from the dotted one only at an edge of W = 0: P says when the edge is met, t is the text there. -/
theorem usableText_at_edge {c : EdgeText} {x : Addr4} {e : Edge} {wide met : Bool} {P : Prop} [Decidable P] {t : Text}
    (hmet : wide = false → (met = true ↔ P)) (ht : wide = false → P → usableText .unwrapped x e = t) :
    usableText c x (if met && !wide then e else .none) =
      if wide = false ∧ P ∧ c = .unwrapped then t else dotted x := by
  cases wide with
  | true => simp [usableText_none]
  | false =>
    cases c with
    | wrapped => simp [usableText_wrapped]
    | unwrapped =>
      by_cases hP : P
      · have hbit := (hmet rfl).mpr hP
        simp [hbit, hP, ht rfl hP]
      · have hbit : met = false := by rw [← Bool.not_eq_true, hmet rfl]; exact hP
        simp [hbit, hP, usableText_none]

/-- The text of V4.FIRST: past its edge the last field reads 256. -/
theorem usableText_firstUsable (c : EdgeText) (n : Addr4) (wide : Bool) :
    usableText c (firstUsable n wide).1 (if (firstUsable n wide).2 && !wide then .over else .none) =
      if wide = false ∧ n.toNat % 256 = 255 ∧ c = .unwrapped then upperOctetsText n.toNat ++ dec 256
      else dotted (firstUsable n wide).1 := by
  refine usableText_at_edge (fun hw => ?_) (fun hw hedge => ?_) <;> subst hw
  · exact firstUsable_overflow n false
  · have hval : (firstUsable n false).1.toNat = n.toNat - n.toNat % 256 + (n.toNat % 256 + 1) % 256 :=
      firstUsable_toNat n false
    have hlast : (firstUsable n false).1.toNat % 256 = 0 := by omega
    have hupper : (firstUsable n false).1.toNat / 2 ^ 8 = n.toNat / 2 ^ 8 := by omega
    rw [usableText_unwrapped_over, hlast, upperOctetsText_congr hupper]
    rfl

/-- The text of V4.LAST: past its edge the last field reads -1. -/
theorem usableText_lastUsable (c : EdgeText) (b : Addr4) (wide : Bool) :
    usableText c (lastUsable b wide).1 (if (lastUsable b wide).2 && !wide then .under else .none) =
      if wide = false ∧ b.toNat % 256 = 0 ∧ c = .unwrapped then upperOctetsText b.toNat ++ decInt (-1)
      else dotted (lastUsable b wide).1 := by
  refine usableText_at_edge (fun hw => ?_) (fun hw hedge => ?_) <;> subst hw
  · exact lastUsable_underflow b false
  · have hval : (lastUsable b false).1.toNat = b.toNat - b.toNat % 256 + (b.toNat % 256 + 255) % 256 :=
      lastUsable_toNat b false
    have hlast : (lastUsable b false).1.toNat % 256 = 255 := by omega
    have hupper : (lastUsable b false).1.toNat / 2 ^ 8 = b.toNat / 2 ^ 8 := by omega
    rw [usableText_unwrapped_under, hlast, upperOctetsText_congr hupper]
    rfl

/-! ### V4.FIRST and V4.LAST -/

theorem maskB_toNat (q : Request) : (maskB q).toNat = q.b.toNat % 2 ^ 32 := by simp [maskB]

theorem netOf_toNat (q : Request) : (netOf q).toNat = (q.a.toNat &&& q.b.toNat) % 2 ^ 32 := by
  rw [netOf, net4, BitVec.toNat_and, addrA_toNat, maskB_toNat, Nat.and_mod_two_pow]

/-- V4.FIRST as a stage (R140). -/
theorem opOf_v4First (wide : Bool) (q : Request) : opOf (.v4First wide) q =
    .ok (stageResponse (firstUsable (netOf q) wide).1
      (packFlags (noncontig := noncontigFlag (maskB q)) (fovf := (firstUsable (netOf q) wide).2))
      (usableText Config.v4EdgeText (firstUsable (netOf q) wide).1
        (if (firstUsable (netOf q) wide).2 && !wide then .over else .none))) := rfl

/-- V4.LAST as a stage (R143). -/
theorem opOf_v4Last (wide : Bool) (q : Request) : opOf (.v4Last wide) q =
    .ok (stageResponse (lastUsable (bcastOf q) wide).1
      (packFlags (noncontig := noncontigFlag (maskB q)) (lunf := (lastUsable (bcastOf q) wide).2))
      (usableText Config.v4EdgeText (lastUsable (bcastOf q) wide).1
        (if (lastUsable (bcastOf q) wide).2 && !wide then .under else .none))) := rfl

theorem packFlags_first_lt (nc ov : Bool) : (packFlags (noncontig := nc) (fovf := ov)).toNat < 4 := by
  revert nc ov; decide

theorem packFlags_last_lt (nc un : Bool) : (packFlags (noncontig := nc) (lunf := un)).toNat < 8 := by
  revert nc un; decide

/-- Settles O34: the number, the flags and the text of `firstUsable` of the request's network. -/
theorem v4FirstResult : Obligations.V4FirstResult := by
  intro s wide
  simp only [← netOf_toNat]
  refine ⟨_, exec_of_opOf_ok (opOf_v4First wide s.req), onlyR0TextFlags_stageResponse _ _ _, ?_, ?_, ?_,
    packFlags_first_lt _ _, ?_⟩
  · rw [stageResponse_r0, result4_toNat, firstUsable_toNat]
  · rw [stageResponse_flags, packFlags_fovf, firstUsable_overflow]
  · rw [stageResponse_flags, packFlags_noncontig]; exact noncontigFlag_iff _
  · rw [stageResponse_r0, result4_low]
    have htext := usableText_firstUsable Config.v4EdgeText (netOf s.req) wide
    exact htext ▸ textIs_stageResponse _ _ (usableText_fits _ _ _)

/-- Settles O35: the number, the flags and the text of `lastUsable` of the request's broadcast address. -/
theorem v4LastResult : Obligations.V4LastResult := by
  intro s wide m b
  have hb : b = (bcastOf s.req).toNat := congrArg BitVec.toNat (bcast4_eq_or_not (addrA s.req) m).symm
  clear_value b
  subst hb
  refine ⟨_, exec_of_opOf_ok (opOf_v4Last wide s.req), onlyR0TextFlags_stageResponse _ _ _, ?_, ?_, ?_, ?_,
    packFlags_last_lt _ _, ?_⟩
  · rw [stageResponse_r0, result4_toNat, lastUsable_toNat]
  · rw [stageResponse_flags, packFlags_lunf, lastUsable_underflow]
  · rw [stageResponse_flags, packFlags_noncontig]; exact noncontigFlag_iff _
  · rw [stageResponse_flags, packFlags_fovf]
  · rw [stageResponse_r0, result4_low]
    have htext := usableText_lastUsable Config.v4EdgeText (bcastOf s.req) wide
    exact htext ▸ textIs_stageResponse _ _ (usableText_fits _ _ _)

/-! ### V4.SUBNET -/

/-- The response of V4.SUBNET on address a and mask m (R146). -/
def subnetResponse (wide : Bool) (a m : Addr4) : Response :=
  { Response.zero with
    r0 := result4 (net4 a m), r1 := result4 (bcast4 a m), r2 := result4 (firstUsable (net4 a m) wide).1,
    r3 := result4 (lastUsable (bcast4 a m) wide).1, rcount := BitVec.ofInt 130 (hosts (popcount m)),
    rpfx := BitVec.ofNat 8 (popcount m),
    flags := packFlags (noncontigFlag m) (firstUsable (net4 a m) wide).2 (lastUsable (bcast4 a m) wide).2
      (hlimFlag m) }

theorem opOf_v4Subnet (wide : Bool) (q : Request) :
    opOf (.v4Subnet wide) q = .ok (subnetResponse wide (addrA q) (maskB q)) := rfl

/-- The four flags are those of the stages, put together. -/
theorem packFlags_subnet_eq_or (nc ov un hl : Bool) : packFlags nc ov un hl =
    packFlags (noncontig := nc) ||| packFlags (noncontig := nc) (fovf := ov) |||
      packFlags (noncontig := nc) (lunf := un) ||| packFlags (noncontig := nc) (hlim := hl) := by
  revert nc ov un hl; decide

theorem hlimFlag_iff (m : Addr4) : hlimFlag m = true ↔ 31 ≤ popcount m := decide_eq_true_iff

theorem popcount_field_toNat (m : Addr4) : (BitVec.ofNat 8 (popcount m)).toNat = popcount m := by
  have hle := popcount_le m
  rw [BitVec.toNat_ofNat]
  omega

/-- Settles O36: field by field the response of V4.SUBNET is put together from the stages' responses; then each field as
a number. -/
theorem v4SubnetComposesItsStages : Obligations.V4SubnetComposesItsStages := by
  intro s wide a m n c
  have hc : (bcast4 a m).toNat = c := congrArg BitVec.toNat (bcast4_eq_or_not a m)
  refine ⟨subnetResponse wide a m, _, _, _, _, _, _, exec_of_opOf_ok (i := .v4And) rfl,
    exec_of_opOf_ok (i := .v4Bcast) rfl,
    exec_of_opOf_ok (opOf_v4First wide s.req), exec_of_opOf_ok (opOf_v4Last wide s.req),
    exec_of_opOf_ok (i := .v4Hosts) rfl, exec_of_opOf_ok (i := .v4Cidr) rfl, exec_of_opOf_ok (opOf_v4Subnet wide s.req),
    ?_, result4_toNat _, ?_, ?_, ?_, hosts_toInt _, popcount_field_toNat m, ?_, ?_, ?_, ?_⟩
  · rw [subnetResponse, packFlags_subnet_eq_or]; rfl
  · exact (result4_toNat _).trans hc
  · exact (result4_toNat _).trans (firstUsable_toNat _ wide)
  · rw [← hc]; exact (result4_toNat _).trans (lastUsable_toNat _ wide)
  · rw [subnetResponse, packFlags_noncontig]; exact noncontigFlag_iff m
  · rw [subnetResponse, packFlags_fovf]; exact firstUsable_overflow _ wide
  · rw [subnetResponse, packFlags_lunf, ← hc]; exact lastUsable_underflow _ wide
  · rw [subnetResponse, packFlags_hlim]; exact hlimFlag_iff m

end Sys2Proof.Machine
end

section
/-! PROOFS. The population count (spec/43_popcount_cidr.md R160 to R166): the responses of V4.HOSTS and V4.CIDR. -/

namespace Sys2Proof.Machine

/-! ### V4.HOSTS -/

/-- The response of V4.HOSTS on mask m (R161). -/
def hostsResponse (m : Addr4) : Response :=
  withText
    { Response.zero with
      rcount := BitVec.ofInt 130 (hosts (popcount m)), rpfx := BitVec.ofNat 8 (popcount m),
      flags := packFlags (noncontig := noncontigFlag m) (hlim := hlimFlag m) }
    (decInt (hosts (popcount m)))

theorem opOf_v4Hosts (q : Request) : opOf .v4Hosts q = .ok (hostsResponse (maskB q)) := rfl

theorem textIs_hostsResponse (m : Addr4) : TextIs (hostsResponse m) (decInt (hosts (popcount m))) :=
  textIs_withText _ _ ((hosts_text_length_le _).trans (by decide))

theorem packFlags_hosts_eq_or (nc hl : Bool) :
    packFlags (noncontig := nc) (hlim := hl) = packFlags (noncontig := nc) ||| packFlags (hlim := hl) := by
  revert nc hl; decide

/-- HLIM alone is FLAGS bit 3 (R26, R265). -/
theorem packFlags_hlimFlag (m : Addr4) : packFlags (hlim := hlimFlag m) = if 31 ≤ popcount m then 8 else 0 := by
  split
  · rename_i h; rw [(hlimFlag_iff m).mpr h]; rfl
  · rename_i h; rw [Bool.eq_false_iff.mpr (mt (hlimFlag_iff m).mp h)]; rfl

theorem hostsResponse_flags (m : Addr4) : (hostsResponse m).flags =
    (if m = ones (popcount m) 32 then 0 else 1) ||| if 31 ≤ popcount m then 8 else 0 := by
  rw [hostsResponse, withText_flags, packFlags_hosts_eq_or, packFlags_noncontigFlag, packFlags_hlimFlag]

/-- Settles O38: the 130-bit field holds every `hosts k`, -1 and 0 for 32 and 31 ones among them. -/
theorem v4HostsCountsExactly : Obligations.V4HostsCountsExactly := fun s =>
  ⟨hostsResponse (maskB s.req), exec_of_opOf_ok (opOf_v4Hosts s.req), rfl, popcount_le _, hosts_toInt _,
    popcount_field_toNat _, textIs_hostsResponse _, hostsResponse_flags _⟩

/-! ### V4.CIDR -/

/-- The response of V4.CIDR on mask m (R163). -/
def cidrResponse (m : Addr4) : Response :=
  withText { Response.zero with rpfx := BitVec.ofNat 8 (popcount m), flags := packFlags (noncontig := noncontigFlag m) }
    (chSlash :: dec (popcount m))

theorem opOf_v4Cidr (q : Request) : opOf .v4Cidr q = .ok (cidrResponse (maskB q)) := rfl

theorem textIs_cidrResponse (m : Addr4) : TextIs (cidrResponse m) (0x2F :: dec (popcount m)) :=
  textIs_withText _ _ ((cidr_text_length_le m).trans (by decide))

/-- Settles O39: RPFX, the text and NONCONTIG of the response, each from the count of ones. -/
theorem v4CidrEncodesOnesCount : Obligations.V4CidrEncodesOnesCount := fun s =>
  ⟨cidrResponse (maskB s.req), exec_of_opOf_ok (opOf_v4Cidr s.req), rfl, popcount_field_toNat _,
    textIs_cidrResponse _, packFlags_noncontigFlag _⟩

end Sys2Proof.Machine
end

section
/-! PROOFS. IPv6 conversion (spec/44_ipv6_expand.md R182 to R194): the expansion of a text check by check, the responses
of V6.EXPAND, V6.PFX, V6.FMT and V6.BIN, and the colon-hex round trip. -/

namespace Sys2Proof.Machine

/-! ### The expansion, check by check -/

/-- A text that passes the checks of R182 and R183: hex digits and colons only, and no field of more than four. -/
structure ExpandableText (s : Text) : Prop where
  bytes : ∀ b ∈ s, isHex b = true ∨ b = chColon
  short : ∀ f ∈ split chColon s, f.length ≤ 4

/-- The group that a field names; an empty field counts 0. -/
abbrev fieldGroup (f : Text) : Seg := BitVec.ofNat 16 (hexval f)

/-- The groups of a text after gap filling (R184). -/
def groupsOf (s : Text) : List Seg := fillGap ((split chColon s).countP fun f => !f.isEmpty) false (split chColon s)

/-- The address of a list of groups: eight of them, or the error of R185. -/
def addrOfGroups : List Seg → Except Raise Addr6
  | [s0, s1, s2, s3, s4, s5, s6, s7] => .ok (v6 s0 s1 s2 s3 s4 s5 s6 s7)
  | _ => raiseParse noField

theorem expand6_of_badChar {s : Text} {i : Nat} (h : badCharField s = some i) : expand6 s = raiseParse (fieldInfo i) := by
  simp only [expand6, h]

theorem expand6_of_long_field {s : Text} {i : Nat} (hbytes : ∀ b ∈ s, isHex b = true ∨ b = chColon)
    (h : (split chColon s).findIdx? (fun f => decide (4 < f.length)) = some i) :
    expand6 s = raiseParse (fieldInfo i) := by
  simp only [expand6, badCharField_none hbytes, h]

theorem expand6_of_expandable {s : Text} (h : ExpandableText s) : expand6 s = addrOfGroups (groupsOf s) := by
  have hshort : (split chColon s).findIdx? (fun f => decide (4 < f.length)) = none :=
    findIdx?_none_of _ _ fun f hf => decide_eq_false (Nat.not_lt.mpr (h.short f hf))
  simp only [expand6, badCharField_none h.bytes, hshort]
  rfl

/-- Eight groups are the segments of the address; any other count is ParseError(0xFF) (R185). -/
theorem addrOfGroups_spec (g : List Seg) : (g.length ≠ 8 → addrOfGroups g = .error { status := 1, info := 0xFF }) ∧
    (g.length = 8 → ∃ x, addrOfGroups g = .ok x ∧ ∀ i, i < 8 → seg x i = g.getD i 0) := by
  refine ⟨fun hcount => ?_, fun hcount => ?_⟩
  · unfold addrOfGroups
    split
    · exact absurd rfl hcount
    · rfl
  · match g, hcount with
    | [s0, s1, s2, s3, s4, s5, s6, s7], _ => exact ⟨_, rfl, seg_v6 s0 s1 s2 s3 s4 s5 s6 s7⟩

theorem groupsOf_of_no_gap {s : Text} (h : ∀ f ∈ split chColon s, f ≠ []) :
    groupsOf s = (split chColon s).map fieldGroup := fillGap_no_gap _ _ h

theorem countP_nonempty {fs : List Text} (h : ∀ f ∈ fs, f ≠ []) : fs.countP (fun f => !f.isEmpty) = fs.length := by
  simpa [List.countP_eq_length] using h

/-- Only the first empty field is filled, up to eight groups; the later ones name nothing (R184). -/
theorem groupsOf_of_gap {s : Text} {u v : List Text} (hs : split chColon s = u ++ [] :: v) (hu : ∀ f ∈ u, f ≠ []) :
    groupsOf s = u.map fieldGroup ++ List.replicate (8 - (u.length + (v.filter fun f => !f.isEmpty).length)) 0 ++
      (v.filter fun f => !f.isEmpty).map fieldGroup := by
  have hcount : (u ++ [] :: v).countP (fun f => !f.isEmpty) = u.length + (v.filter fun f => !f.isEmpty).length := by
    rw [List.countP_append, countP_nonempty hu, List.countP_cons_of_neg (by simp), List.countP_eq_length_filter]
  rw [groupsOf, hs, hcount, fillGap_at _ _ _ hu]

/-- Settles O40: the first failing check, or the groups without and with a gap. -/
theorem expansionFillsTheFirstGap : Obligations.ExpansionFillsTheFirstGap := by
  intro s _
  refine ⟨fun u b v hs hu hb => ?_, fun hbytes => ⟨fun u f v hfs hu hf => ?_, fun hshort => ?_⟩⟩
  · exact hs ▸ expand6_of_badChar (badCharField_some hu hb)
  · have hfirst := findIdx?_first (fun f => decide (4 < f.length)) u v f
      (fun g hg => decide_eq_false (Nat.not_lt.mpr (hu g hg))) (decide_eq_true hf)
    exact expand6_of_long_field hbytes (hfs ▸ hfirst)
  · have hexpand := expand6_of_expandable ⟨hbytes, hshort⟩
    refine ⟨fun hne => ?_, fun u v hfs hu => ?_⟩
    · rw [hexpand, groupsOf_of_no_gap hne]
      obtain ⟨hbad, hok⟩ := addrOfGroups_spec ((split chColon s).map fieldGroup)
      rw [List.length_map] at hbad hok
      refine ⟨hbad, fun hcount => ?_⟩
      obtain ⟨x, hx, hseg⟩ := hok hcount
      exact ⟨x, hx, fun i hi => (hseg i hi).trans (List.getD_map _ [] fieldGroup)⟩
    · rw [hexpand, groupsOf_of_gap hfs hu]
      exact addrOfGroups_spec _

/-! ### An address as R0 and colon-hex text: V6.EXPAND -/

/-- The response with x in R0, the given FLAGS and its colon-hex text (R186, R190). -/
def addr6Response (x : Addr6) (flags : BitVec 8) : Response :=
  withText { Response.zero with r0 := x, flags := flags } (colonhex x)

theorem onlyR0TextFlags_addr6Response (x : Addr6) (f : BitVec 8) : OnlyR0TextFlags (addr6Response x f) := rfl

theorem textIs_addr6Response (x : Addr6) (f : BitVec 8) : TextIs (addr6Response x f) (colonhex x) :=
  textIs_withText _ _ (colonhex_fits x)

/-- GAPQ alone is FLAGS bit 5 (R26, R267). -/
theorem packFlags_gapq_eq (b : Bool) : packFlags (gapq := b) = if b then 32 else 0 := by
  revert b; decide

/-- With a text to read, V6.EXPAND answers with the address that expand6 finds (R186). -/
theorem opOf_v6Expand {q : Request} (hlen : q.tlen.toNat ≤ 128) (hne : textOf q ≠ []) : opOf .v6Expand q =
    (expand6 (textOf q)).map fun x => addr6Response x (packFlags (gapq := gapQuirk (textOf q))) := by
  rw [opOf, opV6Expand, textOperand_of_nonempty hlen hne]
  rfl

theorem exec_v6Expand_of_ok {s : State} {x : Addr6} (hlen : s.req.tlen.toNat ≤ 128) (hne : textOf s.req ≠ [])
    (hx : expand6 (textOf s.req) = .ok x) :
    exec .v6Expand s = .next (doneWith s (addr6Response x (packFlags (gapq := gapQuirk (textOf s.req))))) := by
  apply exec_of_opOf_ok
  rw [opOf_v6Expand hlen hne, hx]
  rfl

/-- Settles O41: no text, the error of expand6, or its address. -/
theorem v6ExpandResult : Obligations.V6ExpandResult := by
  refine fun s hlen => ⟨fun hnil => exec_of_opOf_error (opOf_of_empty_text rfl hlen hnil), fun e hne he => ?_,
    fun x hne hx => ⟨_, exec_v6Expand_of_ok hlen hne hx, onlyR0TextFlags_addr6Response _ _, rfl,
      textIs_addr6Response _ _, packFlags_gapq_eq _⟩⟩
  have hstatus := expand6_error_status he
  have hop : opOf .v6Expand s.req = .error e := by rw [opOf_v6Expand hlen hne, he]; rfl
  exact ⟨hstatus, hstatus ▸ exec_of_opOf_error hop⟩

/-! ### V6.FMT and V6.BIN -/

theorem exec_v6Fmt (s : State) : exec .v6Fmt s = .next (doneWith s (addr6Response s.req.a 0)) := rfl

/-- Settles O45: the colon-hex text and the binary string of A. -/
theorem v6FmtAndBinResults : Obligations.V6FmtAndBinResults := by
  refine fun s => ⟨⟨_, exec_v6Fmt s, onlyR0Text_withText _ _, rfl, textIs_addr6Response _ _⟩,
    ⟨_, exec_of_opOf_ok rfl, onlyR0Text_withText _ _, rfl, ?_, fun j => ?_⟩⟩
  · rw [withText_rtlen, bin_length]; rfl
  · rw [withText_rtext, padText_bin_getElem _ j.isLt]

/-! ### The round trip -/

/-- The eight segments of an address, segment 0 first. -/
def segs (x : Addr6) : List Seg := (List.range 8).map (seg x)

@[simp] theorem segs_length (x : Addr6) : (segs x).length = 8 := rfl

theorem segs_getD (x : Addr6) {i : Nat} (hi : i < 8) : (segs x).getD i 0 = seg x i := by
  simp [segs, hi]

theorem addrOfGroups_segs (x : Addr6) : addrOfGroups (segs x) = .ok x := by
  obtain ⟨y, hy, hseg⟩ := (addrOfGroups_spec (segs x)).2 (segs_length x)
  have hyx : y = x := eq_of_segs y x fun i hi => (hseg i hi).trans (segs_getD x hi)
  rw [hy, hyx]

theorem isHex_of_mem_hex4 {v : Seg} {b : Byte} (h : b ∈ hex4 v) : isHex b = true :=
  (isHex_iff b).mpr ((hex4_range v b h).imp_right .inl)

theorem colon_notMem_hex4 (v : Seg) : chColon ∉ hex4 v := fun h => absurd (isHex_of_mem_hex4 h) (by decide)

theorem fieldGroup_hex4 (v : Seg) : fieldGroup (hex4 v) = v := by
  rw [fieldGroup, hexval_hex4, BitVec.ofNat_toNat, BitVec.setWidth_eq]

/-- colonhex joins the groups of the segments with colons (R88). -/
theorem colonhex_eq_intercalate (x : Addr6) : colonhex x = [chColon].intercalate ((segs x).map hex4) := by
  simp [colonhex, segs, List.range_succ, List.intercalate]

theorem split_colonhex (x : Addr6) : split chColon (colonhex x) = (segs x).map hex4 := by
  rw [split_eq_splitOn, colonhex_eq_intercalate]
  refine List.splitOn_intercalate _ ?_ (by simp [segs])
  simp [colon_notMem_hex4]

/-- Each field of colonhex is four digits. -/
theorem length_of_mem_split_colonhex {x : Addr6} {f : Text} (hf : f ∈ split chColon (colonhex x)) : f.length = 4 := by
  rw [split_colonhex, List.mem_map] at hf
  obtain ⟨v, -, rfl⟩ := hf
  exact hex4_length v

theorem ne_nil_of_mem_split_colonhex {x : Addr6} {f : Text} (hf : f ∈ split chColon (colonhex x)) : f ≠ [] := by
  rintro rfl
  exact absurd (length_of_mem_split_colonhex hf) (by decide)

theorem isHex_or_colon_of_mem_colonhex {x : Addr6} {b : Byte} (hb : b ∈ colonhex x) :
    isHex b = true ∨ b = chColon := by
  simp only [colonhex, List.mem_append, List.mem_singleton] at hb
  have hhex {v : Seg} : b ∈ hex4 v → isHex b = true := isHex_of_mem_hex4
  tauto

theorem expandableText_colonhex (x : Addr6) : ExpandableText (colonhex x) :=
  ⟨fun _ => isHex_or_colon_of_mem_colonhex, fun _ hf => (length_of_mem_split_colonhex hf).le⟩

/-- R194 for the text alone: the expansion of an address's colon-hex text is the address. -/
theorem expand6_colonhex (x : Addr6) : expand6 (colonhex x) = .ok x := by
  have hgroups : groupsOf (colonhex x) = segs x := by
    rw [groupsOf_of_no_gap fun _ => ne_nil_of_mem_split_colonhex, split_colonhex, List.map_map]
    exact (List.map_congr_left fun v _ => fieldGroup_hex4 v).trans (List.map_id _)
  rw [expand6_of_expandable (expandableText_colonhex x), hgroups, addrOfGroups_segs]

theorem emptyFields_eq_nil {fs : List Text} (h : ∀ f ∈ fs, f ≠ []) : emptyFields fs = [] := by
  refine List.filter_eq_nil_iff.mpr fun i hi => ?_
  rw [List.mem_range] at hi
  rw [List.getD_eq_getElem _ _ hi, List.isEmpty_iff]
  exact h _ (List.getElem_mem hi)

/-- A text without empty fields has no gap to fill, so GAPQ is 0 (R267). -/
theorem gapQuirk_of_no_gap {s : Text} (h : ∀ f ∈ split chColon s, f ≠ []) : gapQuirk s = false := by
  simp [gapQuirk, emptyFields_eq_nil h]

/-- A request that carries a response's text has that text as its operand. -/
theorem textOf_of_textIs {r : Response} {t : Text} {q : Request} (h : TextIs r t) (hlen : q.tlen = r.rtlen)
    (hbuf : q.tbuf = r.rtext) : textOf q = t := by
  obtain ⟨hrtlen, hrtext⟩ := h
  rw [textOf, hlen, hbuf, hrtlen, hrtext, List.take_left]

/-- Settles O43: V6.EXPAND answers with V6.FMT's own response. -/
theorem expansionOfFormattedAddressIsIdentity : Obligations.ExpansionOfFormattedAddressIsIdentity := by
  refine fun s u => ⟨_, exec_v6Fmt s, fun hlen hbuf => ?_⟩
  have htext : textOf u.req = colonhex s.req.a := textOf_of_textIs (textIs_addr6Response _ _) hlen hbuf
  have hfits : u.req.tlen.toNat ≤ 128 := by
    rw [hlen, (textIs_addr6Response s.req.a 0).1]
    exact colonhex_fits _
  have hne : textOf u.req ≠ [] := by simp [htext, ← List.length_pos_iff]
  have hx : expand6 (textOf u.req) = .ok s.req.a := htext ▸ expand6_colonhex _
  have hquirk : gapQuirk (textOf u.req) = false := htext ▸ gapQuirk_of_no_gap fun _ => ne_nil_of_mem_split_colonhex
  have hexec := exec_v6Expand_of_ok hfits hne hx
  rw [hquirk] at hexec
  exact ⟨_, hexec, rfl, rfl, rfl, rfl, rfl⟩

/-! ### V6.PFX -/

/-- The response of V6.PFX on value n (R188). -/
def pfxResponse (n : Nat) : Response := withText { Response.zero with rpfx := BitVec.ofNat 8 n } (dec n)

theorem pfxResponse_rpfx_toNat {n : Nat} (h : n ≤ 128) : (pfxResponse n).rpfx.toNat = n := by
  rw [pfxResponse, withText_rpfx, BitVec.toNat_ofNat, Nat.mod_eq_of_lt (by omega)]

theorem textIs_pfxResponse {n : Nat} (h : n ≤ 128) : TextIs (pfxResponse n) (dec n) :=
  textIs_withText _ _ ((dec_length_le (k := 2) (by omega)).trans (by decide))

/-- At most one leading slash is dropped. -/
theorem dropSlash_eq {t d : Text} (h : t = chSlash :: d ∨ t.head? ≠ some chSlash ∧ t = d) : dropSlash t = d := by
  rcases h with rfl | ⟨hhead, rfl⟩
  · simp [dropSlash]
  · cases t with
    | nil => rfl
    | cons b bs =>
      have hb : b ≠ chSlash := fun hb => hhead (congrArg some hb)
      simp [dropSlash, hb]

/-- With a text to read, V6.PFX is its checks on the part after the slash and its result (R188). -/
theorem opOf_v6Pfx {q : Request} {d : Text} (hlen : q.tlen.toNat ≤ 128) (hne : textOf q ≠ [])
    (hd : dropSlash (textOf q) = d) : opOf .v6Pfx q =
      if !isDecimal d then raiseParse (fieldInfo 0)
      else if 128 < decval d then raiseRange (fieldInfo 0)
      else .ok (pfxResponse (decval d)) := by
  subst hd
  rw [opOf, opV6Pfx, textOperand_of_nonempty hlen hne]
  rfl

/-- Settles O44: one case per check, in their order. -/
theorem v6PfxReadsPrefixText : Obligations.V6PfxReadsPrefixText := by
  refine fun s hlen => ⟨fun hnil => exec_of_opOf_error (opOf_of_empty_text rfl hlen hnil), fun d hne hd => ?_⟩
  have hop := opOf_v6Pfx hlen hne (dropSlash_eq hd)
  refine ⟨fun hbad => ?_, fun hdec hbig => ?_, fun hdec hle => ?_⟩
  · rw [(isDecimal_eq_false_iff _).mpr hbad, Bool.not_false, if_pos rfl] at hop
    exact exec_of_opOf_error hop
  · rw [(isDecimal_iff _).mpr hdec, if_neg (by decide), if_pos hbig] at hop
    exact exec_of_opOf_error hop
  · rw [(isDecimal_iff _).mpr hdec, if_neg (by decide), if_neg (Nat.not_lt.mpr hle)] at hop
    exact ⟨_, exec_of_opOf_ok hop, rfl, pfxResponse_rpfx_toNat hle, textIs_pfxResponse hle⟩

end Sys2Proof.Machine
end

section
/-! PROOFS. IPv6 pipeline (spec/45_ipv6_pipeline.md R210 to R233): the two networks and the range bit by bit, and the
responses of V6.MASK, V6.NET, V6.START, V6.END, V6.TOTAL and V6.SUBNET. -/

namespace Sys2Proof.Machine

/-! ### The mask, and where the two networks differ -/

theorem mask6_getLsbD_iff (p : Nat) {i : Nat} (hi : i < 128) : (mask6 p).getLsbD i = true ↔ 128 - p ≤ i := by
  rw [mask6_getLsbD, decide_eq_true hi, Bool.true_and, decide_eq_true_iff]

/-- The networks agree exactly where the mask covers every one of the address in groups 0 to 2 (R216). -/
theorem net6Legacy_eq_net6Full_iff (x m : Addr6) : net6Legacy x m = net6Full x m ↔
    ∀ i, 80 ≤ i → x.getLsbD i = true → m.getLsbD i = true := by
  refine ⟨fun h i hi hx => ?_, fun h => BitVec.eq_of_getLsbD_eq fun i _ => ?_⟩
  · have hbit := congrArg (BitVec.getLsbD · i) h
    simpa [net6Legacy_getLsbD, net6Full_getLsbD, hi, hx] using hbit
  · rw [net6Legacy_getLsbD, net6Full_getLsbD, Bool.eq_iff_iff, Bool.and_eq_true, Bool.and_eq_true, Bool.or_eq_true,
      decide_eq_true_iff]
    exact and_congr_right fun hx => or_iff_right_of_imp fun hi => h i hi hx

/-- The same condition on the 48-bit groups, as R216 writes it. -/
theorem high_groups_masked_iff (x m : Addr6) : x.extractLsb' 80 48 &&& ~~~(m.extractLsb' 80 48) = 0 ↔
    ∀ i, 80 ≤ i → x.getLsbD i = true → m.getLsbD i = true := by
  refine ⟨fun h i hi hx => ?_, fun h => BitVec.eq_of_getLsbD_eq fun j hj => ?_⟩
  · have hlt : i < 128 := BitVec.lt_of_getLsbD hx
    have hbit := congrArg (BitVec.getLsbD · (i - 80)) h
    simpa [show i - 80 < 48 by omega, show 80 + (i - 80) = i by omega, hx] using hbit
  · have hcovered := h (80 + j) (by omega)
    simpa [hj] using hcovered

/-- With the mask of p ones they agree exactly where the address has no one from bit 80 up to its first p bits. -/
theorem net6Legacy_eq_net6Full_mask6_iff (x : Addr6) (p : Nat) : net6Legacy x (mask6 p) = net6Full x (mask6 p) ↔
    ∀ i, 80 ≤ i → i < 128 - p → x.getLsbD i = false := by
  rw [net6Legacy_eq_net6Full_iff]
  refine forall₂_congr fun i _ => ⟨fun hcovered hp => Bool.eq_false_iff.mpr fun hx => ?_, fun hclear hx => ?_⟩
  · exact absurd hp (Nat.not_lt.mpr ((mask6_getLsbD_iff p (BitVec.lt_of_getLsbD hx)).mp (hcovered hx)))
  · rw [mask6_getLsbD_iff p (BitVec.lt_of_getLsbD hx), ← Nat.not_lt]
    exact fun hp => absurd hx (Bool.eq_false_iff.mp (hclear hp))

/-- Settles O52: the bits that only the legacy network keeps are those of groups 0 to 2 outside the mask. -/
theorem legacyNetworkIsFullExactlyWhenHighGroupsMasked :
    Obligations.LegacyNetworkIsFullExactlyWhenHighGroupsMasked := by
  refine fun x m => ⟨rfl, (net6Legacy_eq_net6Full_iff x m).trans (high_groups_masked_iff x m).symm,
    fun p hp _ => ?_, fun p hp => ?_⟩
  · exact (net6Legacy_eq_net6Full_mask6_iff x p).mpr fun i _ _ => by omega
  · rw [net6Legacy_eq_net6Full_mask6_iff]
    exact forall₂_congr fun i _ => imp_congr_left (by omega)

/-- V6LEG tells that the address has a one from bit 80 up to its first p bits (R266). -/
theorem v6legFlag_iff (x : Addr6) (p : Nat) :
    v6legFlag x p = true ↔ ∃ i, 80 ≤ i ∧ i < 128 - p ∧ x.getLsbD i = true := by
  rw [v6legFlag, bne_iff_ne, ne_eq, net6Legacy_eq_net6Full_mask6_iff]
  push Not
  simp only [ne_eq, Bool.not_eq_false]

/-- V6LEG alone is FLAGS bit 4 (R26). -/
theorem packFlags_v6leg_eq (b : Bool) : packFlags (v6leg := b) = if b then 16 else 0 := by
  revert b; decide

/-- FLAGS of V6.NET and V6.SUBNET (R217, R230). -/
theorem packFlags_v6legFlag (x : Addr6) (p : Nat) :
    (packFlags (v6leg := v6legFlag x p) = 16 ∨ packFlags (v6leg := v6legFlag x p) = 0) ∧
      (packFlags (v6leg := v6legFlag x p) = 16 ↔ ∃ i, 80 ≤ i ∧ i < 128 - p ∧ x.getLsbD i = true) := by
  rw [← v6legFlag_iff, packFlags_v6leg_eq]
  cases v6legFlag x p <;> decide

/-! ### The network and the range bit by bit -/

theorem net6_false (x : Addr6) (p : Nat) : net6 false x p = net6Legacy x (mask6 p) := rfl

theorem net6_true (x : Addr6) (p : Nat) : net6 true x p = net6Full x (mask6 p) := rfl

/-- The network of either mode (R215, R216, R217). -/
theorem net6_getLsbD (full : Bool) (x : Addr6) (p : Nat) {i : Nat} (hi : i < 128) :
    (net6 full x p).getLsbD i = true ↔ x.getLsbD i = true ∧ (128 - p ≤ i ∨ full = false ∧ 80 ≤ i) := by
  cases full
  · rw [net6_false, net6Legacy_getLsbD, Bool.and_eq_true, Bool.or_eq_true, decide_eq_true_iff, mask6_getLsbD_iff p hi]
    simp [or_comm]
  · rw [net6_true, net6Full_getLsbD, Bool.and_eq_true, mask6_getLsbD_iff p hi]
    simp

theorem and_mask6_getLsbD (x : Addr6) (p : Nat) {i : Nat} (hi : i < 128) :
    (x &&& mask6 p).getLsbD i = true ↔ x.getLsbD i = true ∧ 128 - p ≤ i := by
  rw [BitVec.getLsbD_and, Bool.and_eq_true, mask6_getLsbD_iff p hi]

theorem or_not_mask6_getLsbD (x : Addr6) (p : Nat) {i : Nat} (hi : i < 128) :
    (x ||| ~~~mask6 p).getLsbD i = true ↔ x.getLsbD i = true ∨ i < 128 - p := by
  rw [BitVec.getLsbD_or, BitVec.getLsbD_not, decide_eq_true hi, Bool.true_and, Bool.or_eq_true, Bool.not_eq_true',
    ← Bool.not_eq_true, mask6_getLsbD_iff p hi, Nat.not_le]

/-- The first p bits of the network are the address's own in either mode: all that the range takes from it (R220). -/
theorem net6_getLsbD_prefix (full : Bool) (x : Addr6) {p i : Nat} (hp : 128 - p ≤ i) (hi : i < 128) :
    (net6 full x p).getLsbD i = x.getLsbD i := by
  rw [Bool.eq_iff_iff, net6_getLsbD full x p hi]
  simp [hp]

theorem start6_net6 (full : Bool) (x : Addr6) (p : Nat) : start6 (net6 full x p) p = x &&& mask6 p := by
  refine BitVec.eq_of_getLsbD_eq fun i hi => ?_
  rw [start6_getLsbD, Bool.eq_iff_iff, and_mask6_getLsbD x p hi, Bool.and_eq_true, decide_eq_true_iff]
  exact and_congr_left fun hp => by rw [net6_getLsbD_prefix full x hp hi]

theorem end6_net6 (full : Bool) (x : Addr6) (p : Nat) : end6 (net6 full x p) p = x ||| ~~~mask6 p := by
  refine BitVec.eq_of_getLsbD_eq fun i hi => ?_
  rw [end6_getLsbD _ _ _ hi, Bool.eq_iff_iff, or_not_mask6_getLsbD x p hi, Bool.or_eq_true, decide_eq_true_iff]
  exact or_congr_left' fun hp => by rw [net6_getLsbD_prefix full x (Nat.le_of_not_lt hp) hi]

/-- Settles O53: both modes have the same range. -/
theorem rangeDoesNotDependOnTheQuirk : Obligations.RangeDoesNotDependOnTheQuirk := fun x p _ =>
  ⟨start6_net6 false x p, start6_net6 true x p, end6_net6 false x p, end6_net6 true x p⟩

/-- Filling with ones outside a mask adds the mask's complement to the masked value: the two share no bit. -/
theorem or_not_toNat {w : Nat} (x m : BitVec w) : (x ||| ~~~m).toNat = (x &&& m).toNat + (~~~m).toNat := by
  have hdisjoint : (x &&& m) &&& ~~~m = 0#w := by
    rw [BitVec.and_assoc, BitVec.and_not_self]
    exact BitVec.and_zero
  have hsplit : x ||| ~~~m = (x &&& m) ||| ~~~m := BitVec.eq_of_getElem_eq (by simp [Bool.or_and_distrib_right])
  rw [hsplit, ← BitVec.add_eq_or_of_and_eq_zero _ _ hdisjoint, BitVec.toNat_add_of_and_eq_zero hdisjoint]

/-- The range of the first p bits holds 2^(128-p) addresses (R233). -/
theorem range6_size (x : Addr6) {p : Nat} (hp : p ≤ 128) :
    (x ||| ~~~mask6 p).toNat + 1 = (x &&& mask6 p).toNat + 2 ^ (128 - p) := by
  have hmask : (mask6 p).toNat = 2 ^ 128 - 2 ^ (128 - p) := ones_toNat p 128 hp
  have hle : 2 ^ (128 - p) ≤ 2 ^ 128 := Nat.pow_le_pow_right (by decide) (Nat.sub_le _ _)
  have hpos : 0 < 2 ^ (128 - p) := Nat.two_pow_pos _
  rw [or_not_toNat, BitVec.toNat_not, hmask]
  omega

/-! ### Reading P -/

/-- A step that reads P first is the rest of its operation on P (R211). -/
theorem exec_of_prefix {i : Instr} {s : State} {f : Nat → Except Raise Response} {r : Response}
    (hi : opOf i s.req = prefixOperand s.req >>= f) (hr : f s.req.p.toNat = .ok r) (h : s.req.p.toNat ≤ 128) :
    exec i s = .next (doneWith s r) := by
  apply exec_of_opOf_ok
  rw [hi, prefixOperand_of_le h]
  exact hr

/-- With P above 128 such a step ends in RangeError(0xFF) (R211). -/
theorem exec_of_long_prefix {i : Instr} {s : State} {f : Nat → Except Raise Response}
    (hi : opOf i s.req = prefixOperand s.req >>= f) (h : 128 < s.req.p.toNat) :
    exec i s = .next (doneWith s (failed 2 0xFF)) := by
  refine exec_of_opOf_error (e := { status := 2, info := 0xFF }) ?_
  rw [hi, prefixOperand_of_long h]
  rfl

/-- Settles O46: each of the six operations reads P first. -/
theorem longPrefixIsRangeError : Obligations.LongPrefixIsRangeError := by
  intro s full h i hi
  fin_cases hi <;> exact exec_of_long_prefix rfl h

/-! ### V6.MASK, V6.NET, V6.START and V6.END -/

/-- The response of V6.MASK on P (R212). -/
def maskResponse (p : BitVec 8) : Response :=
  withText { Response.zero with r0 := mask6 p.toNat, rpfx := BitVec.ofNat 8 p.toNat } (colonhex (mask6 p.toNat))

theorem exec_v6Mask {s : State} (h : s.req.p.toNat ≤ 128) :
    exec .v6Mask s = .next (doneWith s (maskResponse s.req.p)) := exec_of_prefix rfl rfl h

theorem exec_v6Net (full : Bool) {s : State} (h : s.req.p.toNat ≤ 128) :
    exec (.v6Net full) s = .next (doneWith s (addr6Response (net6 full s.req.a s.req.p.toNat)
      (packFlags (v6leg := v6legFlag s.req.a s.req.p.toNat)))) := exec_of_prefix rfl rfl h

theorem exec_v6Start {s : State} (h : s.req.p.toNat ≤ 128) :
    exec .v6Start s = .next (doneWith s (addr6Response (s.req.a &&& mask6 s.req.p.toNat) 0)) := by
  rw [← start6_net6 false]
  exact exec_of_prefix rfl rfl h

theorem exec_v6End {s : State} (h : s.req.p.toNat ≤ 128) :
    exec .v6End s = .next (doneWith s (addr6Response (s.req.a ||| ~~~mask6 s.req.p.toNat) 0)) := by
  rw [← end6_net6 false]
  exact exec_of_prefix rfl rfl h

/-- RPFX is P. -/
theorem ofNat_toNat_prefix (p : BitVec 8) : BitVec.ofNat 8 p.toNat = p := by
  rw [BitVec.ofNat_toNat, BitVec.setWidth_eq]

theorem onlyR0Text_addr6Response (x : Addr6) : OnlyR0Text (addr6Response x 0) := rfl

/-- Settles O47: R0 is the mask of P ones. -/
theorem v6MaskResult : Obligations.V6MaskResult := fun _ =>
  ⟨exec_of_long_prefix rfl, fun h => ⟨_, exec_v6Mask h, rfl, fun _ hi => mask6_getLsbD_iff _ hi, ofNat_toNat_prefix _,
    textIs_withText _ _ (colonhex_fits _)⟩⟩

/-- Settles O48: R0 is the network of the mode. -/
theorem v6NetResult : Obligations.V6NetResult := fun s full =>
  ⟨exec_of_long_prefix rfl, fun h => ⟨_, exec_v6Net full h, onlyR0TextFlags_addr6Response _ _,
    fun _ hi => net6_getLsbD full s.req.a _ hi, textIs_addr6Response _ _, packFlags_v6legFlag s.req.a _⟩⟩

/-- Settles O49: the range's ends computed from the legacy network are those of the address itself. -/
theorem v6StartAndEndResults : Obligations.V6StartAndEndResults := fun s =>
  ⟨fun h => ⟨exec_of_long_prefix rfl h, exec_of_long_prefix rfl h⟩, fun h =>
    ⟨⟨_, exec_v6Start h, onlyR0Text_addr6Response _, textIs_addr6Response _ _,
      fun _ hi => and_mask6_getLsbD s.req.a _ hi⟩,
    ⟨_, exec_v6End h, onlyR0Text_addr6Response _, textIs_addr6Response _ _,
      fun _ hi => or_not_mask6_getLsbD s.req.a _ hi⟩⟩⟩

/-! ### V6.TOTAL -/

/-- The response of V6.TOTAL on P (R226). -/
def totalResponse (p : BitVec 8) : Response :=
  withText { Response.zero with rcount := BitVec.ofNat 130 (total6 p.toNat), rpfx := BitVec.ofNat 8 p.toNat }
    (grouped (total6 p.toNat))

theorem exec_v6Total {s : State} (h : s.req.p.toNat ≤ 128) :
    exec .v6Total s = .next (doneWith s (totalResponse s.req.p)) := exec_of_prefix rfl rfl h

theorem textIs_totalResponse (p : BitVec 8) : TextIs (totalResponse p) (grouped (total6 p.toNat)) :=
  textIs_withText _ _ ((grouped_total6_length_le _).trans (by decide))

/-- The count is positive in the signed field too: it needs 129 of the 130 bits. -/
theorem total6_toInt (p : Nat) : (BitVec.ofNat 130 (total6 p)).toInt = 2 ^ (128 - p) := by
  have hle : total6 p ≤ 2 ^ 128 := Nat.pow_le_pow_right (by decide) (Nat.sub_le _ _)
  have hhalf : 2 * (BitVec.ofNat 130 (total6 p)).toNat < 2 ^ 130 := by rw [total6_toNat]; omega
  rw [BitVec.toInt_eq_toNat_of_lt hhalf, total6_toNat, total6]
  norm_cast

/-- Settles O50: the 130-bit field holds every `total6 p`. -/
theorem v6TotalCountsExactly : Obligations.V6TotalCountsExactly := fun _ =>
  ⟨exec_of_long_prefix rfl, fun h => ⟨_, exec_v6Total h, rfl, total6_toNat _, total6_toInt _, ofNat_toNat_prefix _,
    textIs_totalResponse _⟩⟩

/-! ### V6.SUBNET -/

/-- The response of V6.SUBNET on address x and P (R230). -/
def subnet6Response (full : Bool) (x : Addr6) (p : BitVec 8) : Response :=
  { Response.zero with
    r0 := x, r1 := net6 full x p.toNat, r2 := x &&& mask6 p.toNat, r3 := x ||| ~~~mask6 p.toNat,
    rcount := BitVec.ofNat 130 (total6 p.toNat), rpfx := BitVec.ofNat 8 p.toNat,
    flags := packFlags (v6leg := v6legFlag x p.toNat) }

theorem exec_v6Subnet (full : Bool) {s : State} (h : s.req.p.toNat ≤ 128) :
    exec (.v6Subnet full) s = .next (doneWith s (subnet6Response full s.req.a s.req.p)) := by
  rw [subnet6Response, ← start6_net6 false, ← end6_net6 false]
  exact exec_of_prefix rfl rfl h

/-- Settles O51: field by field the response of V6.SUBNET is put together from the stages' responses. -/
theorem v6SubnetComposesItsStages : Obligations.V6SubnetComposesItsStages := fun s full =>
  ⟨exec_of_long_prefix rfl, fun h =>
    ⟨_, _, _, _, _, exec_v6Net full h, exec_v6Start h, exec_v6End h, exec_v6Total h, exec_v6Subnet full h, rfl,
      fun _ hi => ⟨net6_getLsbD full s.req.a _ hi, and_mask6_getLsbD s.req.a _ hi, or_not_mask6_getLsbD s.req.a _ hi⟩,
      total6_toNat _, ofNat_toNat_prefix _, packFlags_v6legFlag s.req.a _⟩⟩

/-- Settles O54: V6.SUBNET repeats the count of V6.TOTAL, and its range has that size. -/
theorem rangeSizeIsTheAddressCount : Obligations.RangeSizeIsTheAddressCount := fun s full h =>
  ⟨_, _, exec_v6Total h, exec_v6Subnet full h, total6_toNat _, rfl, range6_size s.req.a h⟩

end Sys2Proof.Machine
end

section
/-! PROOFS. Exceptions (spec/60_exceptions.md): the error response (R256, R251) and the five shapes of GAPQ (R267). -/

namespace Sys2Proof.Machine

/-! ### The error response -/

/-- Settles O9: the response of an operation is lawful, whatever the request. -/
theorem errorResponseCarriesStatusAndInfoOnly : Obligations.ErrorResponseCarriesStatusAndInfoOnly := fun i s => by
  obtain ⟨hcode, hok, herr, -⟩ := lawful_responseOf_opOf i s.req
  exact ⟨_, exec_eq i s, hcode, hok, herr⟩

/-! ### The gap quirk -/

theorem mem_emptyFields {fs : List Text} {i : Nat} : i ∈ emptyFields fs ↔ i < fs.length ∧ fs.getD i [] = [] := by
  rw [emptyFields, List.mem_filter, List.mem_range, List.isEmpty_iff]

theorem pairwise_lt_emptyFields (fs : List Text) : (emptyFields fs).Pairwise (· < ·) :=
  List.pairwise_lt_range.filter _

/-- The list of the empty fields is ascending, so a set written in ascending order is R267's set E exactly when the
list is that list. -/
theorem emptyFields_eq_iff {fs : List Text} {l : List Nat} (hl : l.Pairwise (· < ·)) :
    emptyFields fs = l ↔ { i | i < fs.length ∧ fs.getD i [] = [] } = { i | i ∈ l } := by
  simp only [← mem_emptyFields]
  exact ⟨fun h => by rw [h], fun h => (pairwise_lt_emptyFields fs).eq_of_mem_iff hl (Set.ext_iff.mp h)⟩

/-- The five shapes of R267 over the list of the empty fields; an interior gap is a list of one index. -/
theorem gapQuirk_eq_false_iff (s : Text) :
    let k := (split chColon s).length
    let e := emptyFields (split chColon s)
    gapQuirk s = false ↔ e = [] ∨ (∃ i, 0 < i ∧ i + 1 < k ∧ e = [i]) ∨ (3 ≤ k ∧ e = [0, 1]) ∨
      (3 ≤ k ∧ e = [k - 2, k - 1]) ∨ (k = 3 ∧ e = [0, 1, 2]) := by
  simp only [gapQuirk, Bool.not_eq_false', Bool.or_eq_true, Bool.and_eq_true, beq_iff_eq, decide_eq_true_iff, or_assoc]
  generalize emptyFields (split chColon s) = e, (split chColon s).length = k
  match e with
  | [] => simp
  | [i] => simp [Nat.lt_sub_iff_add_lt]
  | i :: j :: l => simp [and_comm]

/-- Settles O42: each shape of the set is that shape of the ascending list. -/
theorem gapQuirkIsZeroOnTheFiveShapes : Obligations.GapQuirkIsZeroOnTheFiveShapes := by
  intro s fs k e
  have hset {l : List Nat} (hl : l.Pairwise (· < ·)) : emptyFields fs = l ↔ e = { i | i ∈ l } := emptyFields_eq_iff hl
  have hnone : emptyFields fs = [] ↔ e = ∅ := by simp [hset]
  have hinterior (i : Nat) : emptyFields fs = [i] ↔ e = {i} := by simp [hset]
  have hleading : emptyFields fs = [0, 1] ↔ e = {0, 1} := by simp [hset, Set.insert_def]
  have htrailing (hk : 3 ≤ k) : emptyFields fs = [k - 2, k - 1] ↔ e = {k - 2, k - 1} := by
    have hlt : k - 2 < k - 1 := by omega
    simp [hset, hlt, Set.insert_def]
  have hboth : emptyFields fs = [0, 1, 2] ↔ e = {0, 1, 2} := by simp [hset, Set.insert_def]
  rw [← hnone, ← hleading, ← hboth, ← and_congr_right htrailing]
  simp only [← hinterior]
  exact gapQuirk_eq_false_iff s

end Sys2Proof.Machine
end

section
/-! PROOFS. RESET and the hazards of the handshake (spec/70_reset_and_hazards.md R280 to R290): when a step faults, runs
without reads, the held SUBMIT, resubmission after RESET, and the end of a BUSY phase. -/

namespace Sys2Proof.Machine

/-! ### When a step faults (R285) -/

theorem step_read_not_done {s : State} {rest : List Turn} (hphase : s.phase ≠ .done)
    (hturns : s.turns = .host .read :: rest) : step s = .fault .readOutsideDone := by
  rw [step_read hturns]
  exact readResponse_not_done (s := { s with turns := rest }) hphase

/-- From a good state every move but a READ outside DONE gives a next state. -/
theorem exists_step_next {s : State} (hs : Inv s) (hread : ∀ rest, s.turns = .host .read :: rest → s.phase = .done) :
    ∃ t, step s = .next t := by
  rcases step_next_or_read s with ⟨_, -, -, h⟩ | ⟨_, -, h⟩ | ⟨_, _, -, -, h⟩ | ⟨_, -, h⟩ | ⟨_, -, h⟩ | ⟨rest, hturns, -⟩
  case inr.inr.inr.inr.inr =>
    have hdone := hread rest hturns
    obtain ⟨r, hr⟩ := Option.isSome_iff_exists.mp (hs.1.mp hdone)
    exact ⟨_, step_read_done hdone hr hturns⟩
  all_goals exact ⟨_, h⟩

/-- Settles O17: a READ outside DONE is the fault, and every other step from a good state gives a next state. -/
theorem stepFaultsExactlyOnReadOutsideDone : Obligations.StepFaultsExactlyOnReadOutsideDone := by
  intro s hs
  by_cases hread : s.phase ≠ .done ∧ ∃ rest, s.turns = .host .read :: rest
  · have ⟨hphase, rest, hturns⟩ := hread
    rw [step_read_not_done hphase hturns]
    exact ⟨iff_of_true rfl hread, nofun⟩
  · obtain ⟨t, ht⟩ := exists_step_next hs fun rest hturns => by_contra fun hphase => hread ⟨hphase, rest, hturns⟩
    rw [ht]
    exact ⟨iff_of_false nofun hread, nofun⟩

/-! ### Runs without reads (R285) -/

/-- What holds of a state, lets it step and is kept by that step makes the run safe. -/
theorem safeRun_of_invariant {P : State → Prop} (hstep : ∀ s, P s → ∃ t, step s = .next t ∧ P t)
    {s : State} (hs : P s) : SafeRun s := by
  intro n
  induction n generalizing s with
  | zero => exact ⟨s, rfl⟩
  | succ n ih =>
    obtain ⟨t, ht, hPt⟩ := hstep s hs
    obtain ⟨u, hu⟩ := ih hPt
    exact ⟨u, (steps_succ n ht).trans hu⟩

/-- A step takes at most the first turn off and adds none. -/
theorem turns_suffix_of_step {s t : State} (h : step s = .next t) : t.turns <:+ s.turns := by
  rcases step_cases h with ⟨rest, -, hturns | ⟨rfl, -⟩, rfl⟩ | ⟨rest, hturns | ⟨-, hturns | ⟨rfl, -⟩⟩, rfl⟩ |
    ⟨q, rest, hturns, -, rfl⟩ | ⟨rest, hturns, rfl⟩ | ⟨rest, hturns, rfl⟩ | ⟨r, rest, hturns, -, -, rfl⟩
  case inl.inr | inr.inl.inr.inr => exact List.suffix_rfl
  all_goals rw [hturns]; exact List.suffix_cons _ rest

/-- A good state whose host never reads again. -/
def GoodWithoutReads (s : State) : Prop := Inv s ∧ ∀ u ∈ s.turns, u ≠ .host .read

theorem GoodWithoutReads.exists_step {s : State} (hs : GoodWithoutReads s) :
    ∃ t, step s = .next t ∧ GoodWithoutReads t := by
  obtain ⟨hinv, hturns⟩ := hs
  obtain ⟨t, ht⟩ := exists_step_next hinv fun rest hread => absurd rfl (hturns (.host .read) (by simp [hread]))
  exact ⟨t, ht, stepKeepsInv s t hinv ht, fun u hu => hturns u ((turns_suffix_of_step ht).subset hu)⟩

/-- Settles O24: a step keeps the state good and the host without reads, so no step faults. -/
theorem runWithoutReadsIsSafe : Obligations.RunWithoutReadsIsSafe := fun _ hinv hturns =>
  safeRun_of_invariant (P := GoodWithoutReads) (fun _ hs => hs.exists_step) ⟨hinv, hturns⟩

/-! ### The held SUBMIT (R286) -/

/-- A SUBMIT held in BUSY lets the engine complete the latched request and stays pending. -/
theorem step_submit_busy {s : State} {q : Request} {rest : List Turn} (hphase : s.phase = .busy)
    (hturns : s.turns = .host (.submit q) :: rest) : step s = .next (doneWith s (executeResponse s.req)) := by
  rw [step_submit_held hturns hphase, engineMove_busy hphase]

/-- With no turn pending the engine completes the latched request. -/
theorem step_no_turn_busy {s : State} (hphase : s.phase = .busy) (hturns : s.turns = []) :
    step s = .next (doneWith s (executeResponse s.req)) := by
  rw [step_no_turn hturns, engineMove_busy hphase]

/-- Settles O14: the engine completes while the SUBMIT is held; in DONE the SUBMIT is taken. -/
theorem submitOfferedWhileBusyIsHeld : Obligations.SubmitOfferedWhileBusyIsHeld := fun s _ _ hturns hphase =>
  ⟨executeResponse s.req, step_submit_busy hphase hturns,
    step_submit (s := doneWith s (executeResponse s.req)) hturns (by simp)⟩

/-! ### RESET and resubmission (R280, R281) -/

/-- Settles O18: RESET in any phase. -/
theorem resetInputReturnsToIdle : Obligations.ResetInputReturnsToIdle := fun _ _ hturns => step_reset hturns

/-- A run goes on from where its first part ends. -/
theorem steps_add {s t : State} {m : Nat} (n : Nat) (h : steps m s = .next t) : steps (m + n) s = steps n t := by
  induction m generalizing s with
  | zero => cases h; rw [Nat.zero_add]
  | succ m ih =>
    rw [Nat.add_right_comm]
    simp only [steps] at h ⊢
    cases hstep : step s with
    | next s' => rw [hstep] at h; exact ih h
    | fault _ | refused _ => rw [hstep] at h; cases h

/-- A SUBMIT and the engine's turn after it: the submitted request is answered. -/
theorem steps_submit_execute {s : State} {q : Request} {rest : List Turn} (hphase : s.phase ≠ .busy)
    (hturns : s.turns = .host (.submit q) :: .engine true :: rest) :
    steps 2 s = .next { doneWith (submit q s) (executeResponse q) with turns := rest } := by
  rw [steps_succ 1 (step_submit hturns hphase), steps_succ 0 (step_engine_busy rfl rfl)]
  rfl

/-- A SUBMIT and a RESET after it: the submitted request is abandoned. -/
theorem steps_submit_reset {s : State} {q : Request} {rest : List Turn} (hphase : s.phase ≠ .busy)
    (hturns : s.turns = .host (.submit q) :: .reset :: rest) :
    steps 2 s = .next (resetInput { s with turns := rest }) := by
  rw [steps_succ 1 (step_submit hturns hphase), steps_succ 0 (step_reset rfl)]
  rfl

/-- Settles O19: the response is that of the request alone, so the RESET between the two SUBMITs leaves it the same. -/
theorem resubmissionAfterResetGivesSameResponse : Obligations.ResubmissionAfterResetGivesSameResponse := by
  refine ⟨fun s rest hturns => ⟨_, step_reset hturns, rfl, rfl⟩, fun s q hphase => ?_⟩
  have habandoned (rest : List Turn) : steps 2 { s with turns := .host (.submit q) :: .reset :: rest } =
      .next (resetInput { s with turns := rest }) := steps_submit_reset hphase rfl
  have hresubmitted := (steps_add 2 (habandoned [.host (.submit q), .engine true])).trans
    (steps_submit_execute (by simp) rfl)
  exact ⟨executeResponse q, ⟨_, steps_submit_execute hphase rfl, rfl, rfl⟩, ⟨_, habandoned [], rfl, rfl⟩,
    _, hresubmitted, rfl, rfl⟩

/-! ### The end of a BUSY phase (R290) -/

/-- Within k steps s is in DONE with the response of its latched request, and of the turns `post` at most a first
completing engine turn is used up. -/
def Completes (s : State) (post : List Turn) (k : Nat) : Prop :=
  ∃ n t, 0 < n ∧ n ≤ k ∧ steps n s = .next t ∧
    t.phase = .done ∧ t.resp = some (executeResponse s.req) ∧ t.req = s.req ∧
    ((∃ left, t.turns = left ++ post) ∨ post = .engine true :: t.turns)

/-- The engine completes the request in this step. -/
theorem completes_of_execute {s : State} {rest post : List Turn} (k : Nat)
    (h : step s = .next { doneWith s (executeResponse s.req) with turns := rest })
    (hrest : (∃ left, rest = left ++ post) ∨ post = .engine true :: rest) : Completes s post (k + 1) :=
  ⟨1, _, Nat.one_pos, Nat.le_add_left 1 k, steps_succ 0 h, rfl, rfl, rfl, hrest⟩

/-- A step that keeps REQ leaves one step fewer to go. -/
theorem Completes.of_earlier_step {s s' : State} {post : List Turn} {k : Nat} (hc : Completes s' post k)
    (h : step s = .next s') (hreq : s'.req = s.req) : Completes s post (k + 1) := by
  obtain ⟨n, t, -, hn, hsteps, hdone⟩ := hc
  exact ⟨n + 1, t, Nat.succ_pos n, Nat.succ_le_succ hn, (steps_succ n h).trans hsteps, hreq ▸ hdone⟩

/-- The turns from a completing move on: the end of the list, an engine turn that completes, or a held SUBMIT. -/
def CompletingMove (post : List Turn) : Prop :=
  post = [] ∨ ∃ rest, post = .engine true :: rest ∨ ∃ q, post = .host (.submit q) :: rest

theorem completes_at_completingMove {s : State} {post : List Turn} (hphase : s.phase = .busy) (hturns : s.turns = post)
    (hpost : CompletingMove post) : Completes s post 1 := by
  subst hturns
  rcases hpost with hnil | ⟨rest, hengine | ⟨q, hheld⟩⟩
  · exact completes_of_execute 0 (step_no_turn_busy hphase hnil) (.inl ⟨[], rfl⟩)
  · exact completes_of_execute 0 (step_engine_busy hphase hengine) (.inr hengine)
  · exact completes_of_execute 0 (step_submit_busy hphase hheld) (.inl ⟨[], rfl⟩)

/-- By induction on the turns before the completing move: a LATENCY step or a poll is used up, an engine turn or a SUBMIT
among them completes the request early. -/
theorem completes_of_busy {s : State} {pre post : List Turn} (hphase : s.phase = .busy) (hturns : s.turns = pre ++ post)
    (hpre : ∀ u ∈ pre, u ≠ .reset ∧ u ≠ .host .read) (hpost : CompletingMove post) :
    Completes s post (pre.length + 1) := by
  induction pre generalizing s with
  | nil => exact completes_at_completingMove hphase hturns hpost
  | cons u pre ih =>
    obtain ⟨⟨hreset, hread⟩, hrest⟩ := List.forall_mem_cons.mp hpre
    match u with
    | .engine false =>
      exact (ih (s := { s with turns := pre ++ post }) hphase rfl hrest).of_earlier_step (step_latency hturns) rfl
    | .host .poll =>
      exact (ih (s := poll { s with turns := pre ++ post }) hphase rfl hrest).of_earlier_step (step_poll hturns) rfl
    | .engine true => exact completes_of_execute _ (step_engine_busy hphase hturns) (.inl ⟨pre, rfl⟩)
    | .host (.submit q) =>
      exact completes_of_execute _ (step_submit_busy hphase hturns) (.inl ⟨.host (.submit q) :: pre, hturns⟩)
    | .reset => exact absurd rfl hreset
    | .host .read => exact absurd rfl hread

/-- Settles O21: the response is that of the latched request, which no turn before the completing move changes. -/
theorem busyPhaseEndsWithItsResponse : Obligations.BusyPhaseEndsWithItsResponse := fun s hphase =>
  ⟨executeResponse s.req, step_no_turn_busy (s := { s with turns := [] }) hphase rfl,
    fun _ _ hturns hpre hpost => completes_of_busy hphase hturns hpre hpost⟩

end Sys2Proof.Machine
end
